-- ==== Sys2Proof/Word.lean ====
section
/-! DEFINITION. The machine's word types: the byte, and the index of a register. -/

namespace Sys2Proof

/-- The one data width: every register, memory cell and instruction byte is an unsigned byte (R5, R9, R12). -/
abbrev Byte := BitVec 8

/-- One of the 8 general-purpose registers, R0 to R7 (R12). -/
abbrev RegIdx := Fin 8

end Sys2Proof
end

