-- ==== Sys2Proof/Syntax.lean ====
section
/-! DEFINITION. The 13 instructions (R2, R41) and their four formats (R38). -/

namespace Sys2Proof

/-- A register-index field as the instruction stream holds it: a whole byte, of which 0 to 7 name a register
and 8 to 255 name none (R39). The field keeps its byte because the `OutOfRange` fault reports it (R59).
DESIGN CHOICE, safe (log 7). -/
abbrev RegField := Byte

/-- The instruction set, one constructor per row of the opcode map (R41). -/
inductive Instr where
  /-- HLT: halt (R66). -/
  | hlt
  /-- LDI Ra,imm: load immediate (R67). -/
  | ldi (a : RegField) (imm : Byte)
  /-- PRN Ra: print register (R68). -/
  | prn (a : RegField)
  /-- ADD Ra,Rb (R71). -/
  | add (a b : RegField)
  /-- MUL Ra,Rb (R72). -/
  | mul (a b : RegField)
  /-- CMP Ra,Rb (R73). -/
  | cmp (a b : RegField)
  /-- PUSH Ra (R78). -/
  | push (a : RegField)
  /-- POP Ra (R79). -/
  | pop (a : RegField)
  /-- CALL Ra: call the subroutine at the address in Ra (R80). -/
  | call (a : RegField)
  /-- RET: return from a subroutine (R81). -/
  | ret
  /-- JMP Ra: jump (R83). -/
  | jmp (a : RegField)
  /-- JEQ Ra: jump when the Equal flag is set (R84). -/
  | jeq (a : RegField)
  /-- JNE Ra: jump when the Equal flag is clear (R85). -/
  | jne (a : RegField)
deriving DecidableEq, Repr

/-- The four instruction formats (R38). -/
inductive Format where
  /-- Opcode only. -/
  | f0
  /-- Opcode, register field A. -/
  | f1
  /-- Opcode, register fields A and B. -/
  | f2r
  /-- Opcode, register field A, immediate. -/
  | f2i
deriving DecidableEq, Repr

/-- The number of bytes an instruction of this format occupies (R37, R38). -/
def Format.width : Format → Nat
  | .f0 => 1
  | .f1 => 2
  | .f2r => 3
  | .f2i => 3

/-- The format column of the opcode map (R41). -/
def Instr.format : Instr → Format
  | .hlt => .f0
  | .ldi _ _ => .f2i
  | .prn _ => .f1
  | .add _ _ => .f2r
  | .mul _ _ => .f2r
  | .cmp _ _ => .f2r
  | .push _ => .f1
  | .pop _ => .f1
  | .call _ => .f1
  | .ret => .f0
  | .jmp _ => .f1
  | .jeq _ => .f1
  | .jne _ => .f1

/-- The width `w` of an instruction (R37). -/
def Instr.width (i : Instr) : Nat := i.format.width

end Sys2Proof
end

