-- ==== Sys2Proof/WellFormed.lean ====
section
/-! DEFINITION. Which instruction terms are legal encodings: every used register field is 0 to 7 (R39, R44). -/

namespace Sys2Proof

/-- A register field names a register (R39). -/
def RegField.legal (f : RegField) : Bool := f.toNat < 8

/-- Every register field the instruction uses is legal (R44): A of F1, F2R and F2I, B of F2R.
LDI's byte 2 is an immediate, so all its values are legal (R45). -/
def Instr.wellFormed : Instr → Bool
  | .hlt => true
  | .ldi a _ => RegField.legal a
  | .prn a => RegField.legal a
  | .add a b => RegField.legal a && RegField.legal b
  | .mul a b => RegField.legal a && RegField.legal b
  | .cmp a b => RegField.legal a && RegField.legal b
  | .push a => RegField.legal a
  | .pop a => RegField.legal a
  | .call a => RegField.legal a
  | .ret => true
  | .jmp a => RegField.legal a
  | .jeq a => RegField.legal a
  | .jne a => RegField.legal a

end Sys2Proof
end

