-- ==== Sys2Proof/Decode.lean ====
section
/-! DEFINITION. The dispatch decoder, from the 3-byte fetch window to an instruction or a rejection by name
(R37 to R46, R58), and after it the encoder, both from the opcode map of R41. -/

namespace Sys2Proof

/-- Why a window is no instruction. -/
inductive DecodeError where
  /-- The opcode byte is none of the 13 of R41: the machine raises `UnsupportedInstruction` (R43, R58). Safe:
  the spec's own behaviour. -/
  | unsupportedInstruction (op : Byte)
  /-- Fewer than 3 bytes were given: no fetch window (R37). The machine never asks this: its fetch raises
  `OutOfRange` first (R57). Safe. -/
  | shortWindow
deriving DecidableEq, Repr

/-- The opcode map (R41): each opcode byte with the instruction it selects, as a function of the fetched
fields A (byte 1) and B (byte 2). The bytes a format does not use are ignored (R38, R45). -/
def opcodeMap : List (Byte × (Byte → Byte → Instr)) :=
  [ (0b00000001, fun _ _ => .hlt),
    (0b10000010, fun a b => .ldi a b),
    (0b01000111, fun a _ => .prn a),
    (0b10100000, fun a b => .add a b),
    (0b10100010, fun a b => .mul a b),
    (0b10100111, fun a b => .cmp a b),
    (0b01000101, fun a _ => .push a),
    (0b01000110, fun a _ => .pop a),
    (0b01010000, fun a _ => .call a),
    (0b00010001, fun _ _ => .ret),
    (0b01010100, fun a _ => .jmp a),
    (0b01010101, fun a _ => .jeq a),
    (0b01010110, fun a _ => .jne a) ]

/-- The dispatch decoder: all 8 bits of `op` are compared with the 13 entries (R42, R58). -/
def decodeWindow (op a b : Byte) : Except DecodeError Instr :=
  match opcodeMap.lookup op with
  | some select => .ok (select a b)
  | none => .error (.unsupportedInstruction op)

/-- Decoding total on any bytes: the first three are the fetch window, the rest are not read (R37, R45). -/
def decode : List Byte → Except DecodeError Instr
  | op :: a :: b :: _ => decodeWindow op a b
  | _ => .error .shortWindow

/-- The opcode column of R41. -/
def Instr.opcode : Instr → Byte
  | .hlt => 0x01
  | .ldi _ _ => 0x82
  | .prn _ => 0x47
  | .add _ _ => 0xA0
  | .mul _ _ => 0xA2
  | .cmp _ _ => 0xA7
  | .push _ => 0x45
  | .pop _ => 0x46
  | .call _ => 0x50
  | .ret => 0x11
  | .jmp _ => 0x54
  | .jeq _ => 0x55
  | .jne _ => 0x56

/-- The operand bytes, in stream order (R38). -/
def Instr.operands : Instr → List Byte
  | .hlt => []
  | .ldi a imm => [a, imm]
  | .prn a => [a]
  | .add a b => [a, b]
  | .mul a b => [a, b]
  | .cmp a b => [a, b]
  | .push a => [a]
  | .pop a => [a]
  | .call a => [a]
  | .ret => []
  | .jmp a => [a]
  | .jeq a => [a]
  | .jne a => [a]

/-- The bytes of an instruction at increasing addresses: the opcode, then its operand bytes (R37, R38). -/
def encode (i : Instr) : List Byte := i.opcode :: i.operands

/-- Byte `k` of an instruction whose bits are `w`, numbered as spec/opcode_table.json numbers them: bit 0 is the
least significant bit of byte 0. Bits from `nbits` up are 0. -/
def tableByte (nbits w k : Nat) : Byte := BitVec.ofNat 8 (w % 2 ^ nbits / 2 ^ (8 * k))

/-- The fetch window that holds such an instruction, in the order the hardware stores it (R29, R38). -/
def tableWindow (nbits w : Nat) : List Byte :=
  [tableByte nbits w 0, tableByte nbits w 1, tableByte nbits w 2]

/-- The instruction the decoder reads from an instruction of the opcode table whose bits are `w`. -/
def decodeTableWord (nbits w : Nat) : Option Instr := (decode (tableWindow nbits w)).toOption

end Sys2Proof
end

