-- ==== Sys2Proof/Config.lean ====
section
/-! DEFINITION. What the implementation fixes (R5, R7) and the free values the spec leaves open. -/

namespace Sys2Proof.Config

/-- `MEM_SIZE` - 1: the highest memory address (R5). -/
abbrev addrMax : Nat := 255

/-- `SP_INDEX`: register 7 is the stack pointer (R5, R14). -/
abbrev spIndex : RegIdx := 7

/-- `SP_RESET` (R5, R16). -/
abbrev spReset : Byte := 0xF4

/-- `PC_RESET` (R5, R18). -/
abbrev pcReset : Byte := 0

/-- `LOAD_BASE`: where byte 0 of a program image goes (R5, R31, R102). -/
abbrev loadBase : Nat := 0

/-- How CMP treats the two flags that do not match (R7). -/
inductive CmpFlagPolicy where
  /-- All three flags are cleared, then the matching one is set. -/
  | clear
  /-- The matching flag is set and the other two keep their value: a compatibility variant. -/
  | sticky
deriving DecidableEq, Repr

/-- Parameter `cmp_flag_policy`: this hardware takes `Clear` (R7, 90_conflicts.md C6). -/
abbrev cmpFlagPolicy : CmpFlagPolicy := .clear

/-- The free bytes: what the fetch latches hold between instructions, which the spec calls unspecified
(R26, R101, ID9). No body: nothing can evaluate it. DESIGN CHOICE, safe (log 5). -/
opaque freeByte : Nat → Byte

end Sys2Proof.Config
end

