-- ==== Sys2Proof/Machine/State.lean ====
section
/-! DEFINITION. The state of the machine as plain data (10_state.md), the two stop types, and the state after reset. -/

namespace Sys2Proof.Machine

/-- The comparison flags Equal, Greater and Less: three independent booleans with no byte layout (R19). -/
structure Flags where
  e : Bool
  g : Bool
  l : Bool
deriving DecidableEq, Repr

/-- The run status (R22). -/
inductive RunStatus where
  /-- 0: after reset. -/
  | ready
  /-- 1: the only status in which instructions execute (R55). -/
  | running
  /-- 2: HLT was executed. -/
  | halted
  /-- 3: a fault was raised; left only by reset (R92). -/
  | faulted
deriving DecidableEq, Repr

/-- The `cause` field of the fault record (R23, R87). -/
inductive FaultCause where
  /-- 0: no fault. -/
  | none
  /-- 1: raised by decode, for any of the 243 unlisted opcode bytes (R88). -/
  | unsupportedInstruction
  /-- 2: raised by the ALU for a tag with no case; no encoding reaches it (R89). -/
  | unsupportedAluOperation
  /-- 3: raised by the operand fetch, a register field over 7, or a sequential pc over 255 (R90). -/
  | outOfRange
deriving DecidableEq, Repr

/-- The `subkind` field of the fault record (R23). -/
inductive FaultSubkind where
  /-- 0: a memory address, for `OutOfRange`; also what every other cause records (log 10). -/
  | address
  /-- 1: a register index. -/
  | register
deriving DecidableEq, Repr

/-- The fault record (R23). -/
structure FaultRecord where
  cause : FaultCause
  subkind : FaultSubkind
  /-- The `pc` of the faulting instruction. -/
  fpc : Byte
  /-- Its opcode byte as fetched. -/
  fop : Byte
  /-- The offending value. -/
  info : BitVec 9
deriving DecidableEq, Repr

/-- The fetch latches, hidden state: the three bytes of the fetch window (R26). -/
structure FetchLatch where
  op : Byte
  a : Byte
  b : Byte
deriving DecidableEq, Repr

/-- The memory array (R24) as the cells that differ from their reset value, addresses strictly rising. -/
abbrev Memory := List Host.Cell

/-- Every piece of state the spec gives the machine (R12 to R26). -/
structure State where
  /-- The register file x[0] to x[7]; x[7] is SP (R12, R14). -/
  regs : Vector Byte 8
  /-- The program counter (R17). -/
  pc : Byte
  /-- FL.E, FL.G and FL.L (R19). -/
  flags : Flags
  /-- The run status (R22). -/
  status : RunStatus
  /-- The fault record (R23). -/
  faultRecord : FaultRecord
  /-- The 256-byte memory behind the memory port (R24). -/
  mem : Memory
  /-- The output record: the bytes emitted by PRN, oldest first (R25). -/
  output : List Byte
  /-- The fetch latches (R26). -/
  latch : FetchLatch
  /-- THE MODEL'S OWN, not the spec's: how many values of `Config.freeByte` have been drawn (log 6). -/
  freeIndex : Nat
deriving DecidableEq, Repr

/-- The reasons a step could stop WITHOUT a next state. There is none: the spec describes the entry of each of its
faults, so each is a next state with `status` = Faulted (R91); the memory port always completes (R51);
the output port never refuses (R52). -/
inductive Fault where
deriving DecidableEq, Repr

/-- The reasons the model could decline an instruction. -/
inductive Refusal where
  /-- Raised only by an arm of `exec` whose instruction has no meaning yet. No arm raises it. Safe. -/
  | notModelled (mnemonic : String)
deriving DecidableEq, Repr

/-- The fault record with no fault in it (R23). -/
abbrev FaultRecord.empty : FaultRecord :=
  { cause := .none, subkind := .address, fpc := 0, fop := 0, info := 0 }

/-- The state right after reset (R16, R18, R19, R22 to R25, R101). The latches, which the spec leaves unspecified,
and the model's own counter are 0: DESIGN CHOICE, unsafe (log 5, log 6). -/
def State.reset : State where
  regs := #v[0, 0, 0, 0, 0, 0, 0, Config.spReset]
  pc := Config.pcReset
  flags := { e := false, g := false, l := false }
  status := .ready
  faultRecord := .empty
  mem := []
  output := []
  latch := { op := 0, a := 0, b := 0 }
  freeIndex := 0

end Sys2Proof.Machine
end

