-- ==== Sys2Proof/Machine/Ops.lean ====
section
/-! DEFINITION. The named operations over memory and registers, the stack pointer controller, and taking a fault. -/

namespace Sys2Proof.Machine

/-- What a step or a meaning answers. -/
abbrev Result := Host.Outcome State Fault Refusal

/-! ### Memory -/

/-- What a cell that nothing has written holds: memory is zero-initialised (R24). -/
abbrev unlistedByte : Byte := 0

/-- The byte at an address. Reading changes nothing (R28). -/
def Memory.read : Memory → Nat → Byte
  | [], _ => unlistedByte
  | (b, w) :: m, a => if b = a then w else Memory.read m a

/-- Store one byte, keeping the canonical form. -/
def Memory.write : Memory → Nat → Byte → Memory
  | [], a, v => if v = unlistedByte then [] else [(a, v)]
  | (b, w) :: m, a, v =>
    if a < b then (if v = unlistedByte then (b, w) :: m else (a, v) :: (b, w) :: m)
    else if a = b then (if v = unlistedByte then m else (a, v) :: m)
    else (b, w) :: Memory.write m a v

/-- Store bytes at rising addresses from `a`; memory ends at address 255 and bytes past it are dropped. -/
def Memory.place : Memory → Nat → List Byte → Memory
  | m, _, [] => m
  | m, a, v :: vs => Memory.place (if a ≤ Config.addrMax then m.write a v else m) (a + 1) vs

/-- The canonical form above an address: addresses rise strictly from `lo` and are at most 255, and no cell holds
what an unlisted one reads as. -/
def Memory.wfFrom : Nat → Memory → Bool
  | _, [] => true
  | lo, (a, v) :: m => decide (lo ≤ a) && decide (a ≤ Config.addrMax) && decide (v ≠ unlistedByte) && Memory.wfFrom (a + 1) m

/-- The canonical form: equal memories are equal lists. -/
def Memory.wf (m : Memory) : Bool := Memory.wfFrom 0 m

/-- `u8(v)` = v mod 256, with a non-negative result (R9). -/
def u8 (v : Int) : Byte := BitVec.ofInt 8 v

/-! ### Reads and writes of the state (R10) -/

namespace State

/-- `x[i]`. No register is hardwired (R13). -/
def readReg (s : State) (r : RegIdx) : Byte := s.regs[r]

/-- `x[i] <- v`. -/
def writeReg (s : State) (r : RegIdx) (v : Byte) : State := { s with regs := s.regs.set r v }

/-- `pc <- target`. -/
def setPc (s : State) (target : Byte) : State := { s with pc := target }

/-- `(FL.E, FL.G, FL.L) <- f`. -/
def setFlags (s : State) (f : Flags) : State := { s with flags := f }

/-- `status <- st`. -/
def setStatus (s : State) (st : RunStatus) : State := { s with status := st }

/-- `MemRead(addr, 1)`: the port takes an 8-bit address, so it always completes (R51). -/
def memRead (s : State) (addr : Byte) : Byte := s.mem.read addr.toNat

/-- `MemWrite(addr, 1, v)` (R51). -/
def memWrite (s : State) (addr v : Byte) : State := { s with mem := s.mem.write addr.toNat v }

/-- `emit(v)`: the host appends the byte to the output record (R25, R52). -/
def emit (s : State) (v : Byte) : State := { s with output := s.output ++ [v] }

/-- `SP`, another name of `x[7]` (R10, R14). -/
def sp (s : State) : Byte := s.readReg Config.spIndex

/-! ### The stack pointer controller (R75, R76) -/

/-- `x[7] <- u8(x[7] - 1)`. -/
def decSp (s : State) : State := s.writeReg Config.spIndex (u8 ((s.sp.toNat : Int) - 1))

/-- `x[7] <- u8(x[7] + 1)`. -/
def incSp (s : State) : State := s.writeReg Config.spIndex (u8 ((s.sp.toNat : Int) + 1))

/-- The push primitive: decrement SP, then store at the new SP. The value is evaluated in the state after the
decrement, so PUSH R7 stores the decremented SP (R75, R78). -/
def push (s : State) (value : State → Byte) : State :=
  s.decSp.memWrite s.decSp.sp (value s.decSp)

/-- The pop primitive: load the byte at SP, give it to its destination, then increment SP. The increment reads SP
after the destination is written, so POP R7 leaves the loaded byte plus 1 (R76, R79). -/
def pop (s : State) (dest : State → Byte → State) : State :=
  (dest s (s.memRead s.sp)).incSp

/-! ### The fetch latches (R26) -/

/-- Latch the opcode byte of the window. -/
def latchOp (s : State) (v : Byte) : State := { s with latch := { s.latch with op := v } }

/-- Latch byte 1 of the window. -/
def latchA (s : State) (v : Byte) : State := { s with latch := { s.latch with a := v } }

/-- Latch byte 2 of the window. -/
def latchB (s : State) (v : Byte) : State := { s with latch := { s.latch with b := v } }

/-- After an instruction the latches' value is unspecified (R26): three fresh free bytes. DESIGN CHOICE, safe
(log 5). -/
def releaseLatches (s : State) : State :=
  { s with
    latch := { op := Config.freeByte s.freeIndex, a := Config.freeByte (s.freeIndex + 1),
               b := Config.freeByte (s.freeIndex + 2) },
    freeIndex := s.freeIndex + 3 }

/-- The state a fault leaves: `status` is Faulted, the record is written with `fpc <- pc` and `fop <- op`, nothing
else changes (R91). -/
def faulted (s : State) (cause : FaultCause) (subkind : FaultSubkind) (info : Nat) : State :=
  { s with
    status := .faulted,
    faultRecord := { cause := cause, subkind := subkind, fpc := s.pc, fop := s.latch.op, info := BitVec.ofNat 9 info } }

end State

/-- `raise Fault(cause, subkind, info)`: fault entry, the one exception mechanism of this hardware (R10, R91). It
answers the next state that R91 describes. No return from it exists: only reset leaves Faulted (R92). -/
def raiseFault (cause : FaultCause) (subkind : FaultSubkind) (info : Nat) (s : State) : Result :=
  .next (s.faulted cause subkind info)

/-- Apply `f` to the next state, if there is one. -/
def andThen (o : Result) (f : State → State) : Result :=
  match o with
  | .next s => .next (f s)
  | .fault r => .fault r
  | .refused r => .refused r

end Sys2Proof.Machine
end

