-- ==== Sys2Proof/Machine/Flags.lean ====
section
/-! DEFINITION. The one flag computation of the machine: CMP's (R20, R73). -/

namespace Sys2Proof.Machine

/-- The flags after an unsigned comparison of `x` with `y`, under either policy of R7 (R73). -/
def compareFlags (policy : Config.CmpFlagPolicy) (x y : Byte) (old : Flags) : Flags :=
  match policy with
  | .clear =>
    { e := decide (x.toNat = y.toNat), g := decide (x.toNat > y.toNat), l := decide (x.toNat < y.toNat) }
  | .sticky =>
    { e := old.e || decide (x.toNat = y.toNat), g := old.g || decide (x.toNat > y.toNat),
      l := old.l || decide (x.toNat < y.toNat) }

end Sys2Proof.Machine
end

