-- ==== Sys2Proof/Machine/Operands.lean ====
section
/-! DEFINITION. The operand forms and the two checks an instruction makes on them before it changes any state:
the register field (R59) and the sequential pc (R60). -/

namespace Sys2Proof.Machine

/-- The register a field names, if it names one (R39). -/
def regIndex? (f : RegField) : Option RegIdx :=
  if h : f.toNat < 8 then some ⟨f.toNat, h⟩ else none

/-- Check a used register field: 8 to 255 raise `OutOfRange` (register) with the field byte (R44, R59). -/
def withReg (f : RegField) (s : State) (k : RegIdx → Result) : Result :=
  match regIndex? f with
  | some r => k r
  | none => raiseFault .outOfRange .register f.toNat s

/-- Check the pc of an instruction of width `w` that falls through: `pc + w` above 255 raises `OutOfRange`
(address) and never wraps (R18, R60). -/
def withNextPc (w : Nat) (s : State) (k : Byte → Result) : Result :=
  if Config.addrMax < s.pc.toNat + w then raiseFault .outOfRange .address (s.pc.toNat + w) s
  else k (BitVec.ofNat 8 (s.pc.toNat + w))

end Sys2Proof.Machine
end

