-- ==== Sys2Proof/Machine/Alu.lean ====
section
/-! DEFINITION. The ALU (R69, R70, R74) and the instructions that use it: ADD, MUL, CMP (42_alu.md). -/

namespace Sys2Proof.Machine

/-- The ALU operation tags (R69). -/
abbrev aluTagAdd : BitVec 2 := 0
@[inherit_doc aluTagAdd] abbrev aluTagMul : BitVec 2 := 1
@[inherit_doc aluTagAdd] abbrev aluTagCmp : BitVec 2 := 2

/-- The ALU: a pure function of an operation tag, two register operands and the state; `none` for a tag with no
case. Results are `u8` of the exact result, and only CMP writes flags (R69 to R74). -/
def alu (tag : BitVec 2) (ra rb : RegIdx) (s : State) : Option State :=
  if tag = aluTagAdd then
    some (s.writeReg ra (u8 ((s.readReg ra).toNat + (s.readReg rb).toNat)))
  else if tag = aluTagMul then
    some (s.writeReg ra (u8 ((s.readReg ra).toNat * (s.readReg rb).toNat)))
  else if tag = aluTagCmp then
    some (s.setFlags (compareFlags Config.cmpFlagPolicy (s.readReg ra) (s.readReg rb) s.flags))
  else none

/-- An instruction of format F2R: check A, then B, then the sequential pc, then run the ALU. A tag with no case
raises `UnsupportedAluOperation` last, before any state changes (R59, R60, R63, R74). -/
def execAlu (tag : BitVec 2) (a b : RegField) (s : State) : Result :=
  withReg a s fun ra =>
  withReg b s fun rb =>
  withNextPc Format.f2r.width s fun next =>
  match alu tag ra rb s with
  | some s' => .next (s'.setPc next)
  | none => raiseFault .unsupportedAluOperation .address tag.toNat s

/-- ADD: `x[A] <- u8(x[A] + x[B]); pc <- pc + 3` (R71). -/
def execAdd (a b : RegField) (s : State) : Result := execAlu aluTagAdd a b s

/-- MUL: `x[A] <- u8(x[A] * x[B]); pc <- pc + 3` (R72). -/
def execMul (a b : RegField) (s : State) : Result := execAlu aluTagMul a b s

/-- CMP: the flags from x[A] and x[B]; `pc <- pc + 3` (R73). -/
def execCmp (a b : RegField) (s : State) : Result := execAlu aluTagCmp a b s

end Sys2Proof.Machine
end

