-- ==== Sys2Proof/Machine/Control.lean ====
section
/-! DEFINITION. HLT, LDI and PRN (41_control_io.md). -/

namespace Sys2Proof.Machine

/-- HLT: `pc <- pc + 1; status <- Halted` (R66). -/
def execHlt (s : State) : Result :=
  withNextPc Format.f0.width s fun next => .next ((s.setPc next).setStatus .halted)

/-- LDI: `x[A] <- B; pc <- pc + 3`. The immediate is stored unchanged (R40, R67). -/
def execLdi (a : RegField) (imm : Byte) (s : State) : Result :=
  withReg a s fun ra =>
  withNextPc Format.f2i.width s fun next => .next ((s.writeReg ra imm).setPc next)

/-- PRN: `emit(x[A]); pc <- pc + 2` (R68). -/
def execPrn (a : RegField) (s : State) : Result :=
  withReg a s fun ra =>
  withNextPc Format.f1.width s fun next => .next ((s.emit (s.readReg ra)).setPc next)

end Sys2Proof.Machine
end

