-- ==== Sys2Proof/Machine/Jumps.lean ====
section
/-! DEFINITION. JMP, JEQ and JNE (44_jumps.md). -/

namespace Sys2Proof.Machine

/-- Jump to x[A] when `taken`, else fall through. The field is checked either way (R59, R82). -/
def jumpIf (taken : Bool) (a : RegField) (s : State) : Result :=
  withReg a s fun ra =>
  if taken then .next (s.setPc (s.readReg ra))
  else withNextPc Format.f1.width s fun next => .next (s.setPc next)

/-- JMP: `pc <- x[A]` (R83). -/
def execJmp (a : RegField) (s : State) : Result := jumpIf true a s

/-- JEQ: `if FL.E then pc <- x[A] else pc <- pc + 2` (R84). -/
def execJeq (a : RegField) (s : State) : Result := jumpIf s.flags.e a s

/-- JNE: `if not FL.E then pc <- x[A] else pc <- pc + 2` (R85). -/
def execJne (a : RegField) (s : State) : Result := jumpIf (!s.flags.e) a s

end Sys2Proof.Machine
end

