-- ==== Sys2Proof/Machine/Stack.lean ====
section
/-! DEFINITION. PUSH, POP, CALL and RET (43_stack.md). Stack overflow and underflow are not faults (R77). -/

namespace Sys2Proof.Machine

/-- PUSH: `x[7] <- u8(x[7] - 1); MemWrite(x[7], 1, x[A]); pc <- pc + 2` (R78). -/
def execPush (a : RegField) (s : State) : Result :=
  withReg a s fun ra =>
  withNextPc Format.f1.width s fun next => .next ((s.push (State.readReg · ra)).setPc next)

/-- POP: `x[A] <- MemRead(x[7], 1); x[7] <- u8(x[7] + 1); pc <- pc + 2` (R79). -/
def execPop (a : RegField) (s : State) : Result :=
  withReg a s fun ra =>
  withNextPc Format.f1.width s fun next => .next ((s.pop (State.writeReg · ra)).setPc next)

/-- CALL's return address: the byte after CALL's operand (R80). It fits a byte wherever the fetch window does
(R57); called elsewhere, which no step does, it is taken modulo 256: DESIGN CHOICE, safe (log 9). -/
def returnAddress (s : State) : Byte := u8 (s.pc.toNat + 2)

/-- CALL: `x[7] <- u8(x[7] - 1); MemWrite(x[7], 1, pc + 2); pc <- x[A]`. The target is read after the push, so
CALL R7 jumps to the decremented SP (R80). -/
def execCall (a : RegField) (s : State) : Result :=
  withReg a s fun ra =>
  let pushed := s.push returnAddress
  .next (pushed.setPc (pushed.readReg ra))

/-- RET: `pc <- MemRead(x[7], 1); x[7] <- u8(x[7] + 1)` (R81). -/
def execRet (s : State) : Result := .next (s.pop State.setPc)

end Sys2Proof.Machine
end

