-- ==== Sys2Proof/Machine/Cycle.lean ====
section
/-! DEFINITION. The fetch-decode-execute cycle around `exec` (40_dispatch.md R55 to R61). -/

namespace Sys2Proof.Machine

/-- Fetch: latch the three bytes at `pc`, `pc + 1` and `pc + 2`, whatever the opcode. An operand address above 255
is not read and raises `OutOfRange` (address); it never wraps (R56, R57). -/
def fetchWindow (s : State) (k : State → Result) : Result :=
  let s1 := s.latchOp (s.memRead s.pc)
  if Config.addrMax < s.pc.toNat + 1 then raiseFault .outOfRange .address (s.pc.toNat + 1) s1
  else
    let s2 := s1.latchA (s.memRead (BitVec.ofNat 8 (s.pc.toNat + 1)))
    if Config.addrMax < s.pc.toNat + 2 then raiseFault .outOfRange .address (s.pc.toNat + 2) s2
    else k (s2.latchB (s.memRead (BitVec.ofNat 8 (s.pc.toNat + 2))))

/-- Decode the latched window and run the instruction's handler. An unlisted opcode raises
`UnsupportedInstruction` with the opcode byte (R58, R61). -/
def dispatch (s : State) : Result :=
  match decodeWindow s.latch.op s.latch.a s.latch.b with
  | .ok i => exec i s
  | .error _ => raiseFault .unsupportedInstruction .address s.latch.op.toNat s

/-- One whole instruction; afterwards the latches' value is unspecified (R26, R55). -/
def cycle (s : State) : Result := andThen (fetchWindow s dispatch) State.releaseLatches

/-- Outside Running the CORE takes no step and issues no transaction: nothing changes (R55, R100). DEDUCED, unsafe
(log 2). -/
def idle (s : State) : Result := .next s

end Sys2Proof.Machine
end

