-- ==== Sys2Proof/Machine/Step.lean ====
section
/-! DEFINITION. The step function, and the placing of one instruction where it fetches. -/

namespace Sys2Proof.Machine

/-- One step: one whole instruction while Running, nothing otherwise (R55). -/
def step (s : State) : Host.Outcome State Fault Refusal :=
  if s.status = .running then cycle s else idle s

/-- The state in which `step` fetches and runs the instruction with bits `w`: the loader has written its window at
`pc` and the host has issued `run` (R102, R104; DESIGN CHOICE, safe: log 4). -/
def State.withFetchWord (s : State) (nbits w : Nat) : State :=
  { s with mem := s.mem.place s.pc.toNat (tableWindow nbits w), status := .running }

end Sys2Proof.Machine
end

