-- ==== Sys2Proof/Machine/Loader.lean ====
section
/-! DEFINITION. The program image format the loader reads (R47, 92_eei_decisions.md D20). The loader is outside the
block (R4); its output is the argument of `hostLoad`. -/

namespace Sys2Proof.Machine

/-- A line's text with its comment and its surrounding white space removed. White space is Lean's
`Char.isWhitespace`: PRESUMED, unsafe (log 8). -/
def imageToken (line : List Char) : List Char :=
  (((line.takeWhile (· ≠ '#')).dropWhile Char.isWhitespace).reverse.dropWhile Char.isWhitespace).reverse

/-- One binary digit. -/
def bitOfChar? (c : Char) : Option Bool :=
  if c = '0' then some false else if c = '1' then some true else none

/-- The number binary digits spell, most-significant bit first. -/
def numberOfBits (bits : List Bool) : Nat := bits.foldl (fun n bit => 2 * n + bit.toNat) 0

/-- A byte token is exactly 8 binary digits, most-significant bit first; anything else is a loader failure. -/
def byteOfToken? (token : List Char) : Option Byte :=
  if token.length = 8 then (token.mapM bitOfChar?).map fun bits => BitVec.ofNat 8 (numberOfBits bits) else none

/-- The bytes of an image's lines, in file order; blank and comment lines give none. `none` is a loader failure. -/
def imageBytes? : List (List Char) → Option (List Byte)
  | [] => some []
  | line :: lines =>
    match imageToken line with
    | [] => imageBytes? lines
    | token => (byteOfToken? token).bind fun v => (imageBytes? lines).map (v :: ·)

/-- A program image: 0 to 256 bytes; a malformed or longer one is a loader failure and never reaches the core. -/
def parseImage (lines : List (List Char)) : Option (List Byte) :=
  (imageBytes? lines).filter fun image => decide (image.length ≤ 256)

end Sys2Proof.Machine
end

