-- ==== Sys2Proof/Machine/Ports.lean ====
section
/-! DEFINITION. The transactions a step issues on the memory and output ports, in order, from the table of R54. They
are computed from the state before the step and are not state: DESIGN CHOICE, safe (log 1). -/

namespace Sys2Proof.Machine

/-- A transaction of the memory port (R51) or the output port (R52). -/
inductive Transaction where
  | memRead (addr : Byte)
  | memWrite (addr v : Byte)
  | emit (v : Byte)
deriving DecidableEq, Repr

/-- The transactions of an instruction after its fetch, when it completes without a fault (R54). -/
def bodyTransactions (i : Instr) (s : State) : List Transaction :=
  match i with
  | .hlt => []
  | .ldi _ _ => []
  | .prn a => (regIndex? a).toList.map fun r => .emit (s.readReg r)
  | .add _ _ => []
  | .mul _ _ => []
  | .cmp _ _ => []
  | .push a => (regIndex? a).toList.map fun r => .memWrite s.decSp.sp (s.decSp.readReg r)
  | .pop _ => [.memRead s.sp]
  | .call _ => [.memWrite s.decSp.sp (returnAddress s)]
  | .ret => [.memRead s.sp]
  | .jmp _ => []
  | .jeq _ => []
  | .jne _ => []

/-- Whether an outcome left the machine Faulted. -/
def isFaulted : Result → Bool
  | .next s => decide (s.status = .faulted)
  | .fault _ => true
  | .refused _ => true

/-- The reads of the fetch window that are issued: those at addresses up to 255 (R56, R57). -/
def fetchTransactions (s : State) : List Transaction :=
  ([s.pc.toNat, s.pc.toNat + 1, s.pc.toNat + 2].takeWhile (· ≤ Config.addrMax)).map fun a => .memRead (BitVec.ofNat 8 a)

/-- The transactions of one step, in order. A faulting instruction makes only its fetch reads; outside Running
there are none (R54, R55). -/
def stepTransactions (s : State) : List Transaction :=
  if s.status ≠ .running then []
  else if isFaulted (fetchWindow s dispatch) then fetchTransactions s
  else
    match decodeWindow (s.memRead s.pc) (s.memRead (s.pc + 1)) (s.memRead (s.pc + 2)) with
    | .ok i => fetchTransactions s ++ bodyTransactions i s
    | .error _ => fetchTransactions s

/-- What the memory array holds after a list of transactions (R33, R51). -/
def memAfter : List Transaction → Memory → Memory
  | [], m => m
  | .memRead _ :: ts, m => memAfter ts m
  | .memWrite addr v :: ts, m => memAfter ts (m.write addr.toNat v)
  | .emit _ :: ts, m => memAfter ts m

/-- The bytes a list of transactions delivers to the host, in order (R52). -/
def emitted : List Transaction → List Byte
  | [] => []
  | .memRead _ :: ts => emitted ts
  | .memWrite _ _ :: ts => emitted ts
  | .emit v :: ts => v :: emitted ts

end Sys2Proof.Machine
end

