-- ==== Sys2Proof/Machine/HostPort.lean ====
section
/-! DEFINITION. The control and status port, the loader's writes, and the wire codes of what the host reads
(R22, R23, R53, R87, R101 to R104). These act between steps (log 3). -/

namespace Sys2Proof.Machine

/-- The 2-bit code of the run status (R22). -/
def RunStatus.code : RunStatus → BitVec 2
  | .ready => 0
  | .running => 1
  | .halted => 2
  | .faulted => 3

/-- The 2-bit code of a fault cause (R23, R87). -/
def FaultCause.code : FaultCause → BitVec 2
  | .none => 0
  | .unsupportedInstruction => 1
  | .unsupportedAluOperation => 2
  | .outOfRange => 3

/-- The 1-bit code of a fault subkind (R23, R87). -/
def FaultSubkind.code : FaultSubkind → BitVec 1
  | .address => 0
  | .register => 1

/-- The `run` command: Ready and Halted become Running and execution continues from the current pc; it has no
effect in Running or Faulted (R104). -/
def hostRun (s : State) : State :=
  match s.status with
  | .ready => s.setStatus .running
  | .halted => s.setStatus .running
  | .running => s
  | .faulted => s

/-- The `reset` input, in any status (R101). The latches are unspecified after it, so they are free values, and the
model's counter of free values keeps counting (log 5, log 6). A step is abandoned by landing before it: DEDUCED, safe
(log 13). -/
def hostReset (s : State) : State := { State.reset with freeIndex := s.freeIndex }.releaseLatches

/-- The loader writes an image: byte `i` goes to address `i`. It writes only while `status` is not Running, and an
image of more than 256 bytes never reaches the core (R102). Cells past the image keep what they held: DEDUCED, unsafe
(log 11). -/
def hostLoad (image : List Byte) (s : State) : State :=
  if s.status = .running then s
  else if Config.addrMax + 1 < image.length then s
  else { s with mem := s.mem.place Config.loadBase image }

/-- What the host reads of a register: something only while `status` is not Running (R53; DEDUCED, safe:
log 12). -/
def hostReadReg (r : RegIdx) (s : State) : Option Byte :=
  if s.status = .running then none else some (s.readReg r)

/-- What the host reads of the pc (R53). -/
def hostReadPc (s : State) : Option Byte := if s.status = .running then none else some s.pc

/-- What the host reads of the flags (R53). -/
def hostReadFlags (s : State) : Option Flags := if s.status = .running then none else some s.flags

/-- What the host reads of memory (R53). -/
def hostReadMem (addr : Byte) (s : State) : Option Byte :=
  if s.status = .running then none else some (s.memRead addr)

/-- What the outside world can do to the machine between two steps (R53, R86, R102). -/
inductive HostEvent where
  | run
  | reset
  | load (image : List Byte)
deriving DecidableEq, Repr

/-- The effect of a host event. -/
def applyHostEvent (e : HostEvent) (s : State) : State :=
  match e with
  | .run => hostRun s
  | .reset => hostReset s
  | .load image => hostLoad image s

end Sys2Proof.Machine
end

