-- ==== Sys2Proof/Safety.lean ====
section
/-! DEFINITION. What counts as a safe run, the invariant of the machine, and the states a run can reach. -/

namespace Sys2Proof.Machine

/-- A state of a safe run: no fault has been raised (R65, R91). -/
abbrev State.safe (s : State) : Prop := s.status ≠ .faulted

/-- At most one of E, G and L is true: none before the first CMP (R19), exactly one after it (R73). -/
abbrev Flags.exclusive (f : Flags) : Prop := ¬(f.e ∧ f.g) ∧ ¬(f.e ∧ f.l) ∧ ¬(f.g ∧ f.l)

/-- The fault record says what R23 and R87 allow, for a machine whose pc is `pc`: no cause and all fields 0, or
the opcode byte of an unlisted instruction, or the address 256, or a register field over 7. The pc is the faulting
instruction's (R91), and the ALU's cause is unreachable (R74). -/
abbrev FaultRecord.legal (r : FaultRecord) (pc : Byte) : Prop :=
  (r.cause = .none → r = .empty) ∧
  (r.cause ≠ .none → r.fpc = pc) ∧
  r.cause ≠ .unsupportedAluOperation ∧
  (r.cause = .unsupportedInstruction → r.subkind = .address ∧ r.info.toNat = r.fop.toNat) ∧
  (r.cause = .outOfRange → r.subkind = .address → r.info.toNat = 256) ∧
  (r.cause = .outOfRange → r.subkind = .register → 8 ≤ r.info.toNat ∧ r.info.toNat ≤ 255)

/-- The invariant of the machine: memory is canonical, the flags exclude each other, and the fault record is legal
and names a fault exactly when `status` is Faulted. -/
abbrev State.Inv (s : State) : Prop :=
  s.mem.wf = true ∧ s.flags.exclusive ∧
  (s.status = .faulted ↔ s.faultRecord.cause ≠ .none) ∧ s.faultRecord.legal s.pc

/-- The states a run can reach from reset, with the host acting between steps as it pleases (R53). -/
inductive Reachable : State → Prop where
  | reset : Reachable State.reset
  | step {s t : State} : Reachable s → step s = .next t → Reachable t
  | host {s : State} (e : HostEvent) : Reachable s → Reachable (applyHostEvent e s)

end Sys2Proof.Machine
end

