-- ==== Sys2Proof/Certificates/Slice0/Obligations.lean ====
section
/-! DEFINITION. The statements for the provers. Each docstring names the rule of spec/ it formalises. -/

open Sys2Proof Sys2Proof.Machine

/-! ### Words the statements share -/

namespace Sys2Proof.Claims

/-- The CORE is Running and its fetch window lies in memory and holds these three bytes (R55, R56). -/
abbrev Fetches (s : State) (op a b : Byte) : Prop :=
  s.status = .running ∧ s.pc.toNat ≤ 253 ∧
  s.mem.read s.pc.toNat = op ∧ s.mem.read (s.pc.toNat + 1) = a ∧ s.mem.read (s.pc.toNat + 2) = b

/-- `t` is `s` after fault entry at instruction level: the record takes `fop` from the fetch latch (R91). -/
abbrev FaultState (s : State) (cause : FaultCause) (subkind : FaultSubkind) (info : BitVec 9) : State :=
  { s with
    status := .faulted,
    faultRecord := { cause := cause, subkind := subkind, fpc := s.pc, fop := s.latch.op, info := info } }

/-- `t` is `s` after a step that faulted: only `status` and the record differ, with `fop` the byte at `pc`. Of the
hidden latches and the model's own counter nothing is said (R64, R91). -/
abbrev StepFaults (s t : State) (cause : FaultCause) (subkind : FaultSubkind) (info : BitVec 9) : Prop :=
  t = { s with
        status := .faulted,
        faultRecord := { cause := cause, subkind := subkind, fpc := s.pc, fop := s.mem.read s.pc.toNat, info := info },
        latch := t.latch, freeIndex := t.freeIndex }

/-- An instruction whose opcode byte is `op` faults when that byte lies at 254 or 255 (R57). -/
abbrev FaultsAtTop (op : Byte) : Prop :=
  ∀ s : State, s.status = .running → 254 ≤ s.pc.toNat → s.mem.read s.pc.toNat = op →
    ∃ t, step s = .next t ∧ StepFaults s t .outOfRange .address 256

/-- Register field A, for the formats that have it (R38). -/
def fieldA : Instr → Option Byte
  | .hlt => none | .ldi a _ => some a | .prn a => some a | .add a _ => some a | .mul a _ => some a
  | .cmp a _ => some a | .push a => some a | .pop a => some a | .call a => some a | .ret => none
  | .jmp a => some a | .jeq a => some a | .jne a => some a

/-- Register field B, for format F2R (R38). -/
def fieldB : Instr → Option Byte
  | .hlt => none | .ldi _ _ => none | .prn _ => none | .add _ b => some b | .mul _ b => some b
  | .cmp _ b => some b | .push _ => none | .pop _ => none | .call _ => none | .ret => none
  | .jmp _ => none | .jeq _ => none | .jne _ => none

/-- Whether the instruction ends by `pc <- pc + w`, given FL.E (R60). -/
def fallsThrough (e : Bool) : Instr → Bool
  | .hlt => true | .ldi _ _ => true | .prn _ => true | .add _ _ => true | .mul _ _ => true
  | .cmp _ _ => true | .push _ => true | .pop _ => true | .call _ => false | .ret => false
  | .jmp _ => false | .jeq _ => !e | .jne _ => e

/-- The value of register field `a` (0 where the field names no register, which the uses exclude). -/
def fieldValue (s : State) (a : Byte) : Byte := (s.regs[a.toNat]?).getD 0

/-- The new pc, from the table of R62. CALL reads its target after SP is decremented (R80). -/
def nextPc (s : State) : Instr → Byte
  | .hlt => s.pc + 1
  | .ldi _ _ => s.pc + 3 | .add _ _ => s.pc + 3 | .mul _ _ => s.pc + 3 | .cmp _ _ => s.pc + 3
  | .prn _ => s.pc + 2 | .push _ => s.pc + 2 | .pop _ => s.pc + 2
  | .call a => if a = 7 then s.regs[7] - 1 else fieldValue s a
  | .jmp a => fieldValue s a
  | .ret => s.mem.read s.regs[7].toNat
  | .jeq a => if s.flags.e then fieldValue s a else s.pc + 2
  | .jne a => if s.flags.e then s.pc + 2 else fieldValue s a

/-- The first fault that applies to a window at `pc`, in the order of R63, written from the bytes alone. -/
def firstFault (pc : Nat) (op a b : Byte) (e : Bool) : Option (FaultCause × FaultSubkind × BitVec 9) :=
  if 255 < pc + 1 then some (.outOfRange, .address, 256)
  else if 255 < pc + 2 then some (.outOfRange, .address, 256)
  else if op ∉ ([0x01, 0x82, 0x47, 0xA0, 0xA2, 0xA7, 0x45, 0x46, 0x50, 0x11, 0x54, 0x55, 0x56] : List Byte) then
    some (.unsupportedInstruction, .address, BitVec.ofNat 9 op.toNat)
  else if op ∉ ([0x01, 0x11] : List Byte) ∧ 7 < a.toNat then some (.outOfRange, .register, BitVec.ofNat 9 a.toNat)
  else if op ∈ ([0xA0, 0xA2, 0xA7] : List Byte) ∧ 7 < b.toNat then some (.outOfRange, .register, BitVec.ofNat 9 b.toNat)
  else if op ∈ ([0x82, 0xA0, 0xA2, 0xA7] : List Byte) ∧ 255 < pc + 3 then some (.outOfRange, .address, 256)
  else if (op ∈ ([0x47, 0x45, 0x46] : List Byte) ∨ (op = 0x55 ∧ e = false) ∨ (op = 0x56 ∧ e = true)) ∧ 255 < pc + 2 then
    some (.outOfRange, .address, 256)
  else if op = 0x01 ∧ 255 < pc + 1 then some (.outOfRange, .address, 256)
  else none

/-- Two states that agree on everything but FL.G and FL.L. -/
abbrev SameButGL (s t : State) : Prop :=
  t = { s with flags := { e := s.flags.e, g := t.flags.g, l := t.flags.l } }

/-- Two states that agree on everything but the flags. -/
abbrev SameButFlags (s t : State) : Prop := t = { s with flags := t.flags }

/-- What an instruction leaves alone: the flags, the output, the hidden latches and the model's counter, and,
unless it faults, `status` and the fault record. -/
abbrev KeepsFlagsOutputAndStatus (s t : State) : Prop :=
  t.flags = s.flags ∧ t.output = s.output ∧ t.latch = s.latch ∧ t.freeIndex = s.freeIndex ∧
  (t.status = .faulted ∨ (t.status = s.status ∧ t.faultRecord = s.faultRecord))

/-- The byte at every address reads as before. -/
abbrev KeepsMemory (s t : State) : Prop := ∀ addr : Byte, t.mem.read addr.toNat = s.mem.read addr.toNat

end Sys2Proof.Claims

open Sys2Proof.Claims

/-! ### Encoding and decoding -/

/-- Decode and encode agree on every well-formed instruction, whatever bytes fill the rest of the window
(30_encoding.md sections 1 to 3; R37, R38, R41, R45). -/
def Obligations.DecodeEncodeRoundTrip : Prop :=
  ∀ (i : Instr) (pad : List Byte), i.wellFormed = true → 3 ≤ (encode i ++ pad).length →
    decode (encode i ++ pad) = .ok i

/-- A window that decodes is the encoding of what it decodes to, followed by ignored bytes (R37, R45). -/
def Obligations.EncodeOfDecodedWindow : Prop :=
  ∀ (op a b : Byte) (i : Instr), decodeWindow op a b = .ok i →
    encode i = [op, a, b].take i.width ∧ (encode i).length = i.width

/-- R42: all 8 bits of the opcode are compared; a byte that differs only in bits 7:6 from an entry is illegal. -/
def Obligations.DecoderComparesWholeOpcode : Prop :=
  (∀ op a b : Byte,
    (∃ i, decodeWindow op a b = .ok i) ↔
      op ∈ ([0x01, 0x82, 0x47, 0xA0, 0xA2, 0xA7, 0x45, 0x46, 0x50, 0x11, 0x54, 0x55, 0x56] : List Byte)) ∧
  (∀ op a b : Byte, (∀ i, decodeWindow op a b ≠ .ok i) → decodeWindow op a b = .error (.unsupportedInstruction op)) ∧
  (∀ (i : Instr) (op a b : Byte), op ≠ i.opcode → op &&& 0x3F = i.opcode &&& 0x3F →
    decodeWindow op a b = .error (.unsupportedInstruction op))

/-- Words written out from R41 and R38 decode to the instructions they stand for. -/
def Obligations.WrittenWordsDecode : Prop :=
  decode [0b10000010, 0b00000000, 0b00001000] = .ok (.ldi 0 8) ∧
  decode [0b01000111, 0b00000000, 0b00000001] = .ok (.prn 0) ∧
  decode [0b00000001, 0b00000000, 0b00000000] = .ok .hlt ∧
  decode [0b10100111, 0b00000010, 0b00000111] = .ok (.cmp 2 7) ∧
  decode [0b01010000, 0b00000001, 0b11111111] = .ok (.call 1) ∧
  decode [0b01010110, 0b00000010, 0b00000000] = .ok (.jne 2)

/-- When the window at the pc decodes to an instruction, one step is that instruction's effect on the state with the
window latched, after which the latches hold free values (R55, R56, R61; the release is the model's choice, log 5). -/
def Obligations.StepRunsDecodedInstruction : Prop :=
  ∀ (s : State) (op a b : Byte) (i : Instr), Fetches s op a b → decodeWindow op a b = .ok i →
    step s = andThen (exec i { s with latch := { op := op, a := a, b := b } }) fun t =>
      { t with
        latch := { op := Config.freeByte t.freeIndex, a := Config.freeByte (t.freeIndex + 1),
                   b := Config.freeByte (t.freeIndex + 2) },
        freeIndex := t.freeIndex + 3 }

/-- The instruction `withFetchWord` places is the one the next step runs (model's choice, log 4). -/
def Obligations.PlacedWordIsFetched : Prop :=
  ∀ (s : State) (nbits w : Nat) (i : Instr), s.mem.wf = true → s.pc.toNat ≤ 253 → decodeTableWord nbits w = some i →
    ∃ op a b : Byte, tableWindow nbits w = [op, a, b] ∧ decodeWindow op a b = .ok i ∧
      Fetches (s.withFetchWord nbits w) op a b

/-! ### Control and output: HLT, LDI, PRN -/

/-- R66; a later `run` resumes at the byte after HLT. -/
def Obligations.HltHalts : Prop :=
  encode .hlt = [0x01] ∧
  (∀ s : State, s.pc.toNat ≤ 254 → exec .hlt s = .next { s with pc := s.pc + 1, status := .halted }) ∧
  (∀ s : State,
    hostRun { s with pc := s.pc + 1, status := .halted } = { s with pc := s.pc + 1, status := .running }) ∧
  FaultsAtTop 0x01

/-- R67. -/
def Obligations.LdiLoadsImmediate : Prop :=
  (∀ a v : Byte, encode (.ldi a v) = [0x82, a, v]) ∧
  (∀ (a v : Byte) (s : State) (ha : a.toNat < 8), s.pc.toNat ≤ 252 →
    exec (.ldi a v) s = .next { s with regs := s.regs.set a.toNat v ha, pc := s.pc + 3 }) ∧
  (∀ (a v : Byte) (s : State), 7 < a.toNat →
    exec (.ldi a v) s = .next (FaultState s .outOfRange .register (BitVec.ofNat 9 a.toNat))) ∧
  (∀ (a v : Byte) (s : State), a.toNat < 8 → s.pc = 253 →
    exec (.ldi a v) s = .next (FaultState s .outOfRange .address 256)) ∧
  FaultsAtTop 0x82

/-- R68. -/
def Obligations.PrnEmitsRegister : Prop :=
  (∀ a : Byte, encode (.prn a) = [0x47, a]) ∧
  (∀ (a : Byte) (s : State) (ha : a.toNat < 8), s.pc.toNat ≤ 253 →
    exec (.prn a) s = .next { s with output := s.output ++ [s.regs[a.toNat]], pc := s.pc + 2 }) ∧
  (∀ (a : Byte) (s : State), 7 < a.toNat →
    exec (.prn a) s = .next (FaultState s .outOfRange .register (BitVec.ofNat 9 a.toNat))) ∧
  FaultsAtTop 0x47

/-! ### ALU: ADD, MUL, CMP -/

/-- R71. -/
def Obligations.AddWrapsModulo256 : Prop :=
  (∀ a b : Byte, encode (.add a b) = [0xA0, a, b]) ∧
  (∀ (a b : Byte) (s : State) (ha : a.toNat < 8) (hb : b.toNat < 8), s.pc.toNat ≤ 252 →
    exec (.add a b) s = .next { s with
      regs := s.regs.set a.toNat (BitVec.ofNat 8 ((s.regs[a.toNat].toNat + s.regs[b.toNat].toNat) % 256)) ha,
      pc := s.pc + 3 }) ∧
  (∀ (a b : Byte) (s : State), 7 < a.toNat →
    exec (.add a b) s = .next (FaultState s .outOfRange .register (BitVec.ofNat 9 a.toNat))) ∧
  (∀ (a b : Byte) (s : State), a.toNat < 8 → 7 < b.toNat →
    exec (.add a b) s = .next (FaultState s .outOfRange .register (BitVec.ofNat 9 b.toNat))) ∧
  (∀ (a b : Byte) (s : State), a.toNat < 8 → b.toNat < 8 → s.pc = 253 →
    exec (.add a b) s = .next (FaultState s .outOfRange .address 256)) ∧
  FaultsAtTop 0xA0

/-- R72. -/
def Obligations.MulKeepsLowByte : Prop :=
  (∀ a b : Byte, encode (.mul a b) = [0xA2, a, b]) ∧
  (∀ (a b : Byte) (s : State) (ha : a.toNat < 8) (hb : b.toNat < 8), s.pc.toNat ≤ 252 →
    exec (.mul a b) s = .next { s with
      regs := s.regs.set a.toNat (BitVec.ofNat 8 ((s.regs[a.toNat].toNat * s.regs[b.toNat].toNat) % 256)) ha,
      pc := s.pc + 3 }) ∧
  (∀ (a b : Byte) (s : State), 7 < a.toNat →
    exec (.mul a b) s = .next (FaultState s .outOfRange .register (BitVec.ofNat 9 a.toNat))) ∧
  (∀ (a b : Byte) (s : State), a.toNat < 8 → 7 < b.toNat →
    exec (.mul a b) s = .next (FaultState s .outOfRange .register (BitVec.ofNat 9 b.toNat))) ∧
  (∀ (a b : Byte) (s : State), a.toNat < 8 → b.toNat < 8 → s.pc = 253 →
    exec (.mul a b) s = .next (FaultState s .outOfRange .address 256)) ∧
  FaultsAtTop 0xA2

/-- R73, with the compatibility variant of R7 as a property of the flag computation. -/
def Obligations.CmpSetsFlags : Prop :=
  (∀ a b : Byte, encode (.cmp a b) = [0xA7, a, b]) ∧
  (∀ (a b : Byte) (s : State) (_ : a.toNat < 8) (_ : b.toNat < 8), s.pc.toNat ≤ 252 →
    exec (.cmp a b) s = .next { s with
      flags := { e := decide (s.regs[a.toNat].toNat = s.regs[b.toNat].toNat),
                 g := decide (s.regs[a.toNat].toNat > s.regs[b.toNat].toNat),
                 l := decide (s.regs[a.toNat].toNat < s.regs[b.toNat].toNat) },
      pc := s.pc + 3 }) ∧
  (∀ (x y : Byte) (old : Flags), compareFlags .sticky x y old =
    { e := if x.toNat = y.toNat then true else old.e,
      g := if x.toNat > y.toNat then true else old.g,
      l := if x.toNat < y.toNat then true else old.l }) ∧
  (∀ (a b : Byte) (s : State), 7 < a.toNat →
    exec (.cmp a b) s = .next (FaultState s .outOfRange .register (BitVec.ofNat 9 a.toNat))) ∧
  (∀ (a b : Byte) (s : State), a.toNat < 8 → 7 < b.toNat →
    exec (.cmp a b) s = .next (FaultState s .outOfRange .register (BitVec.ofNat 9 b.toNat))) ∧
  (∀ (a b : Byte) (s : State), a.toNat < 8 → b.toNat < 8 → s.pc = 253 →
    exec (.cmp a b) s = .next (FaultState s .outOfRange .address 256)) ∧
  FaultsAtTop 0xA7

/-- R74: a tag with no case raises `UnsupportedAluOperation`, precise, and no instruction raises it. -/
def Obligations.AluTagWithoutCaseFaults : Prop :=
  (∀ (a b : Byte) (s : State), a.toNat < 8 → b.toNat < 8 → s.pc.toNat ≤ 252 →
    execAlu 3 a b s = .next (FaultState s .unsupportedAluOperation .address 3)) ∧
  (∀ (i : Instr) (s t : State), exec i s = .next t → t.faultRecord.cause = .unsupportedAluOperation →
    t.faultRecord = s.faultRecord)

/-! ### Stack: the controller, PUSH, POP, CALL, RET -/

/-- R75: SP is decremented modulo 256, then the value, evaluated after the decrement, is stored at the new SP. -/
def Obligations.PushDecrementsThenStores : Prop :=
  (∀ (s : State) (value : State → Byte),
    s.push value = { s with
      regs := s.regs.set 7 (s.regs[7] - 1),
      mem := s.mem.write (s.regs[7] - 1).toNat (value { s with regs := s.regs.set 7 (s.regs[7] - 1) }) }) ∧
  (∀ v : Byte, (State.reset.push fun _ => v).regs[7] = 0xF3 ∧ (State.reset.push fun _ => v).mem.read 0xF3 = v) ∧
  (∀ (s : State) (value : State → Byte), s.regs[7] = 0 → (s.push value).regs[7] = 255)

/-- R76: the byte at SP is loaded and given to its destination, then SP is incremented modulo 256. -/
def Obligations.PopLoadsThenIncrements : Prop :=
  (∀ (s : State) (dest : State → Byte → State),
    s.pop dest = { dest s (s.mem.read s.regs[7].toNat) with
      regs := (dest s (s.mem.read s.regs[7].toNat)).regs.set 7
        ((dest s (s.mem.read s.regs[7].toNat)).regs[7] + 1) }) ∧
  (∀ s : State, s.regs[7] = 255 → (s.pop State.setPc).regs[7] = 0 ∧ (s.pop State.setPc).pc = s.mem.read 255)

/-- R78. -/
def Obligations.PushStoresRegister : Prop :=
  (∀ a : Byte, encode (.push a) = [0x45, a]) ∧
  (∀ (a : Byte) (s : State) (_ : a.toNat < 8), s.mem.wf = true → s.pc.toNat ≤ 253 →
    ∃ t, exec (.push a) s = .next t ∧
      t = { s with regs := s.regs.set 7 (s.regs[7] - 1), pc := s.pc + 2, mem := t.mem } ∧
      ∀ addr : Byte, t.mem.read addr.toNat =
        if addr = s.regs[7] - 1 then (s.regs.set 7 (s.regs[7] - 1))[a.toNat] else s.mem.read addr.toNat) ∧
  (∀ (a : Byte) (s : State), 7 < a.toNat →
    exec (.push a) s = .next (FaultState s .outOfRange .register (BitVec.ofNat 9 a.toNat))) ∧
  FaultsAtTop 0x45

/-- R79. -/
def Obligations.PopLoadsRegister : Prop :=
  (∀ a : Byte, encode (.pop a) = [0x46, a]) ∧
  (∀ (a : Byte) (s : State) (ha : a.toNat < 8), s.pc.toNat ≤ 253 →
    exec (.pop a) s = .next { s with
      regs := (s.regs.set a.toNat (s.mem.read s.regs[7].toNat) ha).set 7
        ((s.regs.set a.toNat (s.mem.read s.regs[7].toNat) ha)[7] + 1),
      pc := s.pc + 2 }) ∧
  (∀ (a : Byte) (s : State), 7 < a.toNat →
    exec (.pop a) s = .next (FaultState s .outOfRange .register (BitVec.ofNat 9 a.toNat))) ∧
  FaultsAtTop 0x46

/-- R80. -/
def Obligations.CallPushesReturnAddress : Prop :=
  (∀ a : Byte, encode (.call a) = [0x50, a]) ∧
  (∀ (a : Byte) (s : State) (_ : a.toNat < 8), s.mem.wf = true → s.pc.toNat ≤ 253 →
    ∃ t, exec (.call a) s = .next t ∧
      t = { s with regs := s.regs.set 7 (s.regs[7] - 1), pc := (s.regs.set 7 (s.regs[7] - 1))[a.toNat], mem := t.mem } ∧
      (∀ addr : Byte, t.mem.read addr.toNat =
        if addr = s.regs[7] - 1 then BitVec.ofNat 8 (s.pc.toNat + 2) else s.mem.read addr.toNat) ∧
      s.pc.toNat + 2 ≤ 255) ∧
  (∀ (a : Byte) (s : State), 7 < a.toNat →
    exec (.call a) s = .next (FaultState s .outOfRange .register (BitVec.ofNat 9 a.toNat))) ∧
  FaultsAtTop 0x50

/-- R81. -/
def Obligations.RetPopsPc : Prop :=
  encode .ret = [0x11] ∧
  (∀ s : State, exec .ret s = .next { s with
    pc := s.mem.read s.regs[7].toNat, regs := s.regs.set 7 (s.regs[7] + 1) }) ∧
  FaultsAtTop 0x11

/-- A PUSH followed by a POP into a register other than SP copies the value (for PUSH R7 the decremented SP) and
restores SP (43_stack.md, R79's example; 95_test_vectors.md W5). -/
def Obligations.PushThenPopCopies : Prop :=
  ∀ (a b : Byte) (s : State) (_ : a.toNat < 8) (hb : b.toNat < 7), s.mem.wf = true → s.pc.toNat ≤ 251 →
    ∃ t u, exec (.push a) s = .next t ∧ exec (.pop b) t = .next u ∧
      u.regs = s.regs.set b.toNat (s.regs.set 7 (s.regs[7] - 1))[a.toNat] ∧ u.pc = s.pc + 4 ∧ u.mem = t.mem

/-- A CALL to a RET returns to the byte after the CALL and restores every register (43_stack.md, R81's example;
95_test_vectors.md W6). -/
def Obligations.CallThenRetReturns : Prop :=
  ∀ (a : Byte) (s : State), a.toNat < 8 → s.mem.wf = true → s.pc.toNat ≤ 253 →
    ∃ t u, exec (.call a) s = .next t ∧ exec .ret t = .next u ∧
      u = { s with pc := s.pc + 2, mem := t.mem }

/-! ### Jumps: JMP, JEQ, JNE -/

/-- R83. -/
def Obligations.JmpJumps : Prop :=
  (∀ a : Byte, encode (.jmp a) = [0x54, a]) ∧
  (∀ (a : Byte) (s : State) (_ : a.toNat < 8), exec (.jmp a) s = .next { s with pc := s.regs[a.toNat] }) ∧
  (∀ (a : Byte) (s : State), 7 < a.toNat →
    exec (.jmp a) s = .next (FaultState s .outOfRange .register (BitVec.ofNat 9 a.toNat))) ∧
  FaultsAtTop 0x54

/-- R84. -/
def Obligations.JeqJumpsWhenEqual : Prop :=
  (∀ a : Byte, encode (.jeq a) = [0x55, a]) ∧
  (∀ (a : Byte) (s : State) (_ : a.toNat < 8), s.pc.toNat ≤ 253 →
    exec (.jeq a) s = .next { s with pc := if s.flags.e then s.regs[a.toNat] else s.pc + 2 }) ∧
  (∀ (a : Byte) (s : State), 7 < a.toNat →
    exec (.jeq a) s = .next (FaultState s .outOfRange .register (BitVec.ofNat 9 a.toNat))) ∧
  FaultsAtTop 0x55

/-- R85. -/
def Obligations.JneJumpsWhenNotEqual : Prop :=
  (∀ a : Byte, encode (.jne a) = [0x56, a]) ∧
  (∀ (a : Byte) (s : State) (_ : a.toNat < 8), s.pc.toNat ≤ 253 →
    exec (.jne a) s = .next { s with pc := if s.flags.e then s.pc + 2 else s.regs[a.toNat] }) ∧
  (∀ (a : Byte) (s : State), 7 < a.toNat →
    exec (.jne a) s = .next (FaultState s .outOfRange .register (BitVec.ofNat 9 a.toNat))) ∧
  FaultsAtTop 0x56

/-- R62: the new pc of every instruction that completes; none advances by 0. -/
def Obligations.PcUpdateTable : Prop :=
  (∀ (i : Instr) (s t : State), i.wellFormed = true → s.pc.toNat ≤ 253 → exec i s = .next t →
    s.status = .running → t.status ≠ .faulted → t.pc = nextPc s i ∧ (i = .hlt → t.status = .halted)) ∧
  (∀ (i : Instr) (s : State), fallsThrough s.flags.e i = true → nextPc s i = s.pc + BitVec.ofNat 8 i.width) ∧
  (∀ (i : Instr) (s : State), fallsThrough s.flags.e i = true → nextPc s i ≠ s.pc)

/-! ### Faults -/

/-- R57: the operand fetch never wraps; an opcode at 254 or 255 faults whatever it is, and the read past 255 is not
issued. -/
def Obligations.OperandFetchPastMemoryFaults : Prop :=
  ∀ s : State, s.status = .running →
    (255 < s.pc.toNat + 1 →
      (∃ t, step s = .next t ∧ StepFaults s t .outOfRange .address (BitVec.ofNat 9 (s.pc.toNat + 1))) ∧
      stepTransactions s = [.memRead s.pc]) ∧
    (s.pc.toNat + 1 ≤ 255 → 255 < s.pc.toNat + 2 →
      (∃ t, step s = .next t ∧ StepFaults s t .outOfRange .address (BitVec.ofNat 9 (s.pc.toNat + 2))) ∧
      stepTransactions s = [.memRead s.pc, .memRead (s.pc + 1)])

/-- R88 (with the decode of R58): every byte outside the 13 raises `UnsupportedInstruction` with the byte, before any change. -/
def Obligations.UnlistedOpcodeFaults : Prop :=
  ∀ (s : State) (op a b : Byte), Fetches s op a b →
    op ∉ ([0x01, 0x82, 0x47, 0xA0, 0xA2, 0xA7, 0x45, 0x46, 0x50, 0x11, 0x54, 0x55, 0x56] : List Byte) →
    ∃ t, step s = .next t ∧ StepFaults s t .unsupportedInstruction .address (BitVec.ofNat 9 op.toNat)

/-- R59: field A, then B, whatever the flags; F0 checks nothing and other bytes are never checked. -/
def Obligations.RegisterFieldsAreChecked : Prop :=
  (∀ (i : Instr) (s : State) (a : Byte), fieldA i = some a → 7 < a.toNat →
    exec i s = .next (FaultState s .outOfRange .register (BitVec.ofNat 9 a.toNat))) ∧
  (∀ (i : Instr) (s : State) (a b : Byte), fieldA i = some a → fieldB i = some b → a.toNat ≤ 7 → 7 < b.toNat →
    exec i s = .next (FaultState s .outOfRange .register (BitVec.ofNat 9 b.toNat))) ∧
  (∀ (i : Instr) (s t : State), (∀ f, fieldA i = some f ∨ fieldB i = some f → f.toNat ≤ 7) →
    exec i s = .next t → t.faultRecord.subkind = .register → t.faultRecord = s.faultRecord)

/-- R60: a falling-through pc above 255 faults before any change, and only a 3-byte instruction at 253 meets it once
the fetch has passed. -/
def Obligations.SequentialPcIsChecked : Prop :=
  (∀ (i : Instr) (s : State), i.wellFormed = true → fallsThrough s.flags.e i = true → 255 < s.pc.toNat + i.width →
    exec i s = .next (FaultState s .outOfRange .address (BitVec.ofNat 9 (s.pc.toNat + i.width)))) ∧
  (∀ (i : Instr) (s t : State), i.wellFormed = true →
    (fallsThrough s.flags.e i = true → s.pc.toNat + i.width ≤ 255) → exec i s = .next t →
    t.faultRecord = s.faultRecord ∧ (t.status = s.status ∨ i = .hlt ∧ t.status = .halted)) ∧
  (∀ (i : Instr) (s : State), fallsThrough s.flags.e i = true → s.pc.toNat ≤ 253 →
    (255 < s.pc.toNat + i.width ↔ s.pc = 253 ∧ i.width = 3))

/-- R63: at most one fault is raised, the first in the order of R63, and a step faults exactly when one applies. -/
def Obligations.FirstFaultIsRaised : Prop :=
  ∀ s t : State, s.status = .running → step s = .next t →
    match firstFault s.pc.toNat (s.mem.read s.pc.toNat) (s.mem.read (s.pc.toNat + 1)) (s.mem.read (s.pc.toNat + 2))
      s.flags.e with
    | some (cause, subkind, info) => StepFaults s t cause subkind info
    | none => t.status ≠ .faulted ∧ t.faultRecord = s.faultRecord

/-- R91: what fault entry writes, that nothing else changes, and that the CORE then stops until reset. -/
def Obligations.FaultEntryRecordsAndStops : Prop :=
  ∀ (cause : FaultCause) (subkind : FaultSubkind) (info : Nat) (s : State), info < 512 →
    ∃ t, raiseFault cause subkind info s = .next t ∧
      t.status = .faulted ∧ t.faultRecord.cause = cause ∧ t.faultRecord.subkind = subkind ∧
      t.faultRecord.fpc = s.pc ∧ t.faultRecord.fop = s.latch.op ∧ t.faultRecord.info.toNat = info ∧
      t = { s with status := t.status, faultRecord := t.faultRecord } ∧
      (∀ u, step t = .next u → u.status = .faulted ∧ u.pc = s.pc) ∧ stepTransactions t = []

/-- R64: a faulting step changes `status` and the fault record, and nothing else a program or host can see. -/
def Obligations.FaultsArePrecise : Prop :=
  ∀ s t : State, s.status = .running → step s = .next t → t.status = .faulted →
    t.regs = s.regs ∧ t.pc = s.pc ∧ t.flags = s.flags ∧ t.mem = s.mem ∧ t.output = s.output ∧
    t.faultRecord.cause ≠ .none ∧ t.faultRecord.fpc = s.pc ∧ t.faultRecord.fop = s.mem.read s.pc.toNat ∧
    StepFaults s t t.faultRecord.cause t.faultRecord.subkind t.faultRecord.info

/-- R92: Faulted is absorbing for steps and for every host event but reset, which leaves it. -/
def Obligations.FaultedIsAbsorbing : Prop :=
  ∀ s : State, s.status = .faulted →
    (∀ t, step s = .next t → t.status = .faulted ∧ t.faultRecord = s.faultRecord) ∧ hostRun s = s ∧
    (∀ e : HostEvent, e ≠ .reset → (applyHostEvent e s).status = .faulted ∧
      (applyHostEvent e s).faultRecord = s.faultRecord) ∧
    (applyHostEvent .reset s).status = .ready

/-- Outside Running a step changes nothing (R55 "takes no step"; that it answers the same state is the model's
choice, log 2). -/
def Obligations.NoStepOutsideRunning : Prop :=
  ∀ s : State, s.status ≠ .running → step s = .next s ∧ stepTransactions s = []

/-- Every step and every instruction answers a next state: the model refuses nothing, and the spec's faults are entered
(R91). That a step outside Running answers one too is the model's choice (log 2). -/
def Obligations.EveryStepAnswersNextState : Prop :=
  (∀ s : State, ∃ t, step s = .next t) ∧ (∀ (i : Instr) (s : State), ∃ t, exec i s = .next t)

/-! ### Reset, run, load -/

/-- R101: what reset leaves, from any state. Of the latches nothing is said. -/
def Obligations.ResetState : Prop :=
  ∀ s : State, ∀ t ∈ [State.reset, hostReset s],
    (∀ r : RegIdx, r ≠ 7 → t.regs[r] = 0) ∧ t.regs[7] = 0xF4 ∧ t.pc = 0 ∧
    t.flags = { e := false, g := false, l := false } ∧ (∀ addr : Byte, t.mem.read addr.toNat = 0) ∧
    t.status = .ready ∧ t.faultRecord = { cause := .none, subkind := .address, fpc := 0, fop := 0, info := 0 } ∧
    t.output = []

/-- R104: the run command in each status. -/
def Obligations.RunCommand : Prop :=
  ∀ s : State,
    (s.status = .ready ∨ s.status = .halted → hostRun s = { s with status := .running }) ∧
    (s.status = .running ∨ s.status = .faulted → hostRun s = s)

/-- The loader contract: byte i of the image goes to address i, every other byte of memory and everything else stays,
and while Running, or for an image of more than 256 bytes, nothing changes (70_reset_and_hazards.md, R102; that cells
past the image keep what they held, and that a refused load changes nothing, is the model's reading, log 11). -/
def Obligations.LoaderContract : Prop :=
  (∀ (image : List Byte) (s : State), s.mem.wf = true → s.status ≠ .running → image.length ≤ 256 →
    hostLoad image s = { s with mem := (hostLoad image s).mem } ∧
    (∀ (i : Nat) (h : i < image.length), (hostLoad image s).mem.read i = image[i]) ∧
    (∀ addr : Byte, image.length ≤ addr.toNat → (hostLoad image s).mem.read addr.toNat = s.mem.read addr.toNat)) ∧
  (∀ (image : List Byte) (s : State), s.status = .running ∨ 256 < image.length → hostLoad image s = s)

/-- An image token is read most-significant bit first, and one that is not 8 binary digits is a loader failure
(30_encoding.md section 5, R47). -/
def Obligations.ImageTokenIsMsbFirst : Prop :=
  (∀ v : Byte, byteOfToken? ([7, 6, 5, 4, 3, 2, 1, 0].map fun k => if v.getLsbD k then '1' else '0') = some v) ∧
  (∀ token : List Char, token.length ≠ 8 → byteOfToken? token = none) ∧
  (∀ (token : List Char) (c : Char), c ∈ token → c ≠ '0' → c ≠ '1' → byteOfToken? token = none)

/-- The host reads state only outside Running (40_dispatch.md section 1, R53; the model's reading, log 12), and the codes of what it reads
(10_state.md section 4, R22; 60_exceptions.md section 2, R87). -/
def Obligations.HostPortReads : Prop :=
  (∀ (s : State) (r : RegIdx) (addr : Byte), s.status ≠ .running →
    hostReadReg r s = some s.regs[r] ∧ hostReadPc s = some s.pc ∧ hostReadFlags s = some s.flags ∧
    hostReadMem addr s = some (s.mem.read addr.toNat)) ∧
  (∀ (s : State) (r : RegIdx) (addr : Byte), s.status = .running →
    hostReadReg r s = none ∧ hostReadPc s = none ∧ hostReadFlags s = none ∧ hostReadMem addr s = none) ∧
  ([RunStatus.ready, .running, .halted, .faulted].map RunStatus.code = [0, 1, 2, 3]) ∧
  ([FaultCause.none, .unsupportedInstruction, .unsupportedAluOperation, .outOfRange].map FaultCause.code = [0, 1, 2, 3]) ∧
  ([FaultSubkind.address, .register].map FaultSubkind.code = [0, 1])

/-! ### Frames -/

/-- The frame of LDI, ADD and MUL: only x[A] and the pc may change (41_control_io.md, 42_alu.md; R15, R20, R27). -/
def Obligations.FrameOfRegisterWriters : Prop :=
  ∀ (i : Instr) (a : Byte) (s t : State),
    ((∃ v, i = .ldi a v) ∨ (∃ b, i = .add a b) ∨ (∃ b, i = .mul a b)) → exec i s = .next t →
    (∀ r : RegIdx, r.val ≠ a.toNat → t.regs[r] = s.regs[r]) ∧ KeepsMemory s t ∧ KeepsFlagsOutputAndStatus s t

/-- The frame of HLT, PRN, CMP, JMP, JEQ and JNE: no register and no memory changes; only CMP changes flags, only PRN
the output, and HLT sets Halted (41_control_io.md, 42_alu.md, 44_jumps.md; R15, R20, R27, R52). -/
def Obligations.FrameOfRegisterReaders : Prop :=
  ∀ (i : Instr) (a b : Byte) (s t : State),
    i = .hlt ∨ i = .prn a ∨ i = .cmp a b ∨ i = .jmp a ∨ i = .jeq a ∨ i = .jne a → exec i s = .next t →
    t.regs = s.regs ∧ KeepsMemory s t ∧ t.latch = s.latch ∧ t.freeIndex = s.freeIndex ∧
    (i ≠ .cmp a b → t.flags = s.flags) ∧ (i ≠ .prn a → t.output = s.output) ∧
    (t.status = .faulted ∨
      (t.faultRecord = s.faultRecord ∧ t.status = if i = .hlt then .halted else s.status))

/-- The frame of PUSH and CALL: only SP, the pc and the byte at the decremented SP may change (43_stack.md; R15, R20,
R27). -/
def Obligations.FrameOfPushAndCall : Prop :=
  ∀ (i : Instr) (a : Byte) (s t : State), i = .push a ∨ i = .call a → s.mem.wf = true → exec i s = .next t →
    (∀ r : RegIdx, r ≠ 7 → t.regs[r] = s.regs[r]) ∧ KeepsFlagsOutputAndStatus s t ∧
    (∀ slot : Byte, s.decSp.sp = slot → ∀ addr : Byte, addr ≠ slot → t.mem.read addr.toNat = s.mem.read addr.toNat)

/-- The frame of POP and RET: only SP, POP's x[A] and the pc may change; memory keeps every byte, the popped cell
included (43_stack.md; R15, R20, R27). -/
def Obligations.FrameOfPopAndRet : Prop :=
  ∀ (i : Instr) (a : Byte) (s t : State), i = .pop a ∨ i = .ret → exec i s = .next t →
    (∀ r : RegIdx, r ≠ 7 → (i = .pop a → r.val ≠ a.toNat) → t.regs[r] = s.regs[r]) ∧
    KeepsMemory s t ∧ KeepsFlagsOutputAndStatus s t

/-! ### Whole-machine rules -/

/-- R20: only CMP writes the flags; only JEQ and JNE read one, and they read E alone; E is false until a CMP. -/
def Obligations.FlagsWrittenByCmpReadByJumps : Prop :=
  (∀ s t : State, s.status = .running → step s = .next t → s.mem.read s.pc.toNat ≠ 0xA7 → t.flags = s.flags) ∧
  (∀ s s' t t' : State, SameButFlags s s' → s.mem.read s.pc.toNat ≠ 0x55 → s.mem.read s.pc.toNat ≠ 0x56 →
    step s = .next t → step s' = .next t' → SameButFlags t t') ∧
  (∀ s s' t t' : State, SameButGL s s' → step s = .next t → step s' = .next t' → SameButGL t t') ∧
  State.reset.flags.e = false

/-- Only PUSH and CALL write memory, at the decremented SP (20_memory.md section 1, R27; 10_state.md R24). -/
def Obligations.OnlyPushAndCallWriteMemory : Prop :=
  (∀ s t : State, step s = .next t → s.mem.read s.pc.toNat ≠ 0x45 → s.mem.read s.pc.toNat ≠ 0x50 → t.mem = s.mem) ∧
  (∀ s t : State, s.mem.wf = true → step s = .next t →
    ∀ addr : Byte, addr ≠ s.regs[7] - 1 → t.mem.read addr.toNat = s.mem.read addr.toNat)

/-- Exactly one emit per PRN executed and none for any other instruction (40_dispatch.md section 1, R52). -/
def Obligations.OneEmitPerPrn : Prop :=
  (∀ s t : State, s.status = .running → step s = .next t → s.mem.read s.pc.toNat = 0x47 → t.status ≠ .faulted →
    t.output = s.output ++ [fieldValue s (s.mem.read (s.pc.toNat + 1))]) ∧
  (∀ s t : State, step s = .next t → s.mem.read s.pc.toNat ≠ 0x47 ∨ t.status = .faulted ∨ s.status ≠ .running →
    t.output = s.output)

/-- The memory and the output after a step are what its transactions, listed from the table of R54, make of them
(40_dispatch.md section 1). -/
def Obligations.TransactionsAccountForStep : Prop :=
  ∀ s t : State, step s = .next t →
    t.mem = memAfter (stepTransactions s) s.mem ∧ t.output = s.output ++ emitted (stepTransactions s)

/-- A run ends only by HLT or by a fault, and an HLT whose window can be fetched ends it (40_dispatch.md section 2,
R65). -/
def Obligations.RunEndsByHltOrFault : Prop :=
  (∀ s t : State, s.status = .running → step s = .next t → t.status ≠ .running →
    (t.status = .halted ∧ s.mem.read s.pc.toNat = 0x01 ∧ t.pc = s.pc + 1) ∨ t.status = .faulted) ∧
  (∀ (s : State) (a b : Byte), Fetches s 0x01 a b → ∃ t, step s = .next t ∧ t.status = .halted)

/-- A PUSH over its own operand byte completes as fetched, and the next fetch of that byte reads what it stored
(20_memory.md section 4, R35; 95_test_vectors.md PU5). -/
def Obligations.PushOverOwnOperandCompletes : Prop :=
  ∀ (s : State) (a b : Byte) (_ : a.toNat < 8), s.mem.wf = true → Fetches s 0x45 a b → s.regs[7] = s.pc + 2 →
    ∃ t, step s = .next t ∧ t.status = .running ∧ t.pc = s.pc + 2 ∧ t.regs[7] = s.pc + 1 ∧
      t.mem.read (s.pc.toNat + 1) = (s.regs.set 7 (s.pc + 1))[a.toNat] ∧ t.mem.read s.pc.toNat = 0x45

/-! ### The invariant -/

/-- The invariant holds at reset (R16, R19, R23, R24, R101). -/
def Obligations.ResetMeetsInvariant : Prop := State.reset.Inv

/-- Every step keeps the invariant, from every state that meets it. -/
def Obligations.StepKeepsInvariant : Prop :=
  ∀ s t : State, s.Inv → step s = .next t → t.Inv

/-- Every host event keeps the invariant (R101, R102, R104). -/
def Obligations.HostEventsKeepInvariant : Prop :=
  ∀ (e : HostEvent) (s : State), s.Inv → (applyHostEvent e s).Inv

/-- Every state that steps and host events reach from reset meets the invariant, and a Faulted one names a cause that
an instruction of the table can raise (R87, R89). The events `run`, `reset` and a load of any image act between two
steps only, which is the model's choice (log 3). -/
def Obligations.ReachableStatesMeetInvariant : Prop :=
  ∀ s : State, Reachable s → s.Inv ∧
    (s.status = .faulted → s.faultRecord.cause = .unsupportedInstruction ∨ s.faultRecord.cause = .outOfRange)
end

