-- ==== Sys2Proof/Laws/State.lean ====
section
/-! SUPPORT. One lemma per field per update of the state, and what a register read sees of each update. -/

namespace Sys2Proof.Machine.State

variable (s : State)

/-! ### writeReg -/

@[simp] theorem writeReg_regs (r : RegIdx) (v : Byte) : (s.writeReg r v).regs = s.regs.set r v := rfl
@[simp] theorem writeReg_pc (r : RegIdx) (v : Byte) : (s.writeReg r v).pc = s.pc := rfl
@[simp] theorem writeReg_flags (r : RegIdx) (v : Byte) : (s.writeReg r v).flags = s.flags := rfl
@[simp] theorem writeReg_status (r : RegIdx) (v : Byte) : (s.writeReg r v).status = s.status := rfl
@[simp] theorem writeReg_faultRecord (r : RegIdx) (v : Byte) : (s.writeReg r v).faultRecord = s.faultRecord := rfl
@[simp] theorem writeReg_mem (r : RegIdx) (v : Byte) : (s.writeReg r v).mem = s.mem := rfl
@[simp] theorem writeReg_output (r : RegIdx) (v : Byte) : (s.writeReg r v).output = s.output := rfl
@[simp] theorem writeReg_latch (r : RegIdx) (v : Byte) : (s.writeReg r v).latch = s.latch := rfl
@[simp] theorem writeReg_freeIndex (r : RegIdx) (v : Byte) : (s.writeReg r v).freeIndex = s.freeIndex := rfl

/-! ### setPc -/

@[simp] theorem setPc_regs (v : Byte) : (s.setPc v).regs = s.regs := rfl
@[simp] theorem setPc_pc (v : Byte) : (s.setPc v).pc = v := rfl
@[simp] theorem setPc_flags (v : Byte) : (s.setPc v).flags = s.flags := rfl
@[simp] theorem setPc_status (v : Byte) : (s.setPc v).status = s.status := rfl
@[simp] theorem setPc_faultRecord (v : Byte) : (s.setPc v).faultRecord = s.faultRecord := rfl
@[simp] theorem setPc_mem (v : Byte) : (s.setPc v).mem = s.mem := rfl
@[simp] theorem setPc_output (v : Byte) : (s.setPc v).output = s.output := rfl
@[simp] theorem setPc_latch (v : Byte) : (s.setPc v).latch = s.latch := rfl
@[simp] theorem setPc_freeIndex (v : Byte) : (s.setPc v).freeIndex = s.freeIndex := rfl

/-! ### setFlags -/

@[simp] theorem setFlags_regs (f : Flags) : (s.setFlags f).regs = s.regs := rfl
@[simp] theorem setFlags_pc (f : Flags) : (s.setFlags f).pc = s.pc := rfl
@[simp] theorem setFlags_flags (f : Flags) : (s.setFlags f).flags = f := rfl
@[simp] theorem setFlags_status (f : Flags) : (s.setFlags f).status = s.status := rfl
@[simp] theorem setFlags_faultRecord (f : Flags) : (s.setFlags f).faultRecord = s.faultRecord := rfl
@[simp] theorem setFlags_mem (f : Flags) : (s.setFlags f).mem = s.mem := rfl
@[simp] theorem setFlags_output (f : Flags) : (s.setFlags f).output = s.output := rfl
@[simp] theorem setFlags_latch (f : Flags) : (s.setFlags f).latch = s.latch := rfl
@[simp] theorem setFlags_freeIndex (f : Flags) : (s.setFlags f).freeIndex = s.freeIndex := rfl

/-! ### setStatus -/

@[simp] theorem setStatus_regs (st : RunStatus) : (s.setStatus st).regs = s.regs := rfl
@[simp] theorem setStatus_pc (st : RunStatus) : (s.setStatus st).pc = s.pc := rfl
@[simp] theorem setStatus_flags (st : RunStatus) : (s.setStatus st).flags = s.flags := rfl
@[simp] theorem setStatus_status (st : RunStatus) : (s.setStatus st).status = st := rfl
@[simp] theorem setStatus_faultRecord (st : RunStatus) : (s.setStatus st).faultRecord = s.faultRecord := rfl
@[simp] theorem setStatus_mem (st : RunStatus) : (s.setStatus st).mem = s.mem := rfl
@[simp] theorem setStatus_output (st : RunStatus) : (s.setStatus st).output = s.output := rfl
@[simp] theorem setStatus_latch (st : RunStatus) : (s.setStatus st).latch = s.latch := rfl
@[simp] theorem setStatus_freeIndex (st : RunStatus) : (s.setStatus st).freeIndex = s.freeIndex := rfl

/-! ### memWrite -/

@[simp] theorem memWrite_regs (a v : Byte) : (s.memWrite a v).regs = s.regs := rfl
@[simp] theorem memWrite_pc (a v : Byte) : (s.memWrite a v).pc = s.pc := rfl
@[simp] theorem memWrite_flags (a v : Byte) : (s.memWrite a v).flags = s.flags := rfl
@[simp] theorem memWrite_status (a v : Byte) : (s.memWrite a v).status = s.status := rfl
@[simp] theorem memWrite_faultRecord (a v : Byte) : (s.memWrite a v).faultRecord = s.faultRecord := rfl
@[simp] theorem memWrite_mem (a v : Byte) : (s.memWrite a v).mem = s.mem.write a.toNat v := rfl
@[simp] theorem memWrite_output (a v : Byte) : (s.memWrite a v).output = s.output := rfl
@[simp] theorem memWrite_latch (a v : Byte) : (s.memWrite a v).latch = s.latch := rfl
@[simp] theorem memWrite_freeIndex (a v : Byte) : (s.memWrite a v).freeIndex = s.freeIndex := rfl

/-! ### emit -/

@[simp] theorem emit_regs (v : Byte) : (s.emit v).regs = s.regs := rfl
@[simp] theorem emit_pc (v : Byte) : (s.emit v).pc = s.pc := rfl
@[simp] theorem emit_flags (v : Byte) : (s.emit v).flags = s.flags := rfl
@[simp] theorem emit_status (v : Byte) : (s.emit v).status = s.status := rfl
@[simp] theorem emit_faultRecord (v : Byte) : (s.emit v).faultRecord = s.faultRecord := rfl
@[simp] theorem emit_mem (v : Byte) : (s.emit v).mem = s.mem := rfl
@[simp] theorem emit_output (v : Byte) : (s.emit v).output = s.output ++ [v] := rfl
@[simp] theorem emit_latch (v : Byte) : (s.emit v).latch = s.latch := rfl
@[simp] theorem emit_freeIndex (v : Byte) : (s.emit v).freeIndex = s.freeIndex := rfl

/-! ### latchOp -/

@[simp] theorem latchOp_regs (v : Byte) : (s.latchOp v).regs = s.regs := rfl
@[simp] theorem latchOp_pc (v : Byte) : (s.latchOp v).pc = s.pc := rfl
@[simp] theorem latchOp_flags (v : Byte) : (s.latchOp v).flags = s.flags := rfl
@[simp] theorem latchOp_status (v : Byte) : (s.latchOp v).status = s.status := rfl
@[simp] theorem latchOp_faultRecord (v : Byte) : (s.latchOp v).faultRecord = s.faultRecord := rfl
@[simp] theorem latchOp_mem (v : Byte) : (s.latchOp v).mem = s.mem := rfl
@[simp] theorem latchOp_output (v : Byte) : (s.latchOp v).output = s.output := rfl
@[simp] theorem latchOp_latch (v : Byte) : (s.latchOp v).latch = { s.latch with op := v } := rfl
@[simp] theorem latchOp_freeIndex (v : Byte) : (s.latchOp v).freeIndex = s.freeIndex := rfl

/-! ### latchA -/

@[simp] theorem latchA_regs (v : Byte) : (s.latchA v).regs = s.regs := rfl
@[simp] theorem latchA_pc (v : Byte) : (s.latchA v).pc = s.pc := rfl
@[simp] theorem latchA_flags (v : Byte) : (s.latchA v).flags = s.flags := rfl
@[simp] theorem latchA_status (v : Byte) : (s.latchA v).status = s.status := rfl
@[simp] theorem latchA_faultRecord (v : Byte) : (s.latchA v).faultRecord = s.faultRecord := rfl
@[simp] theorem latchA_mem (v : Byte) : (s.latchA v).mem = s.mem := rfl
@[simp] theorem latchA_output (v : Byte) : (s.latchA v).output = s.output := rfl
@[simp] theorem latchA_latch (v : Byte) : (s.latchA v).latch = { s.latch with a := v } := rfl
@[simp] theorem latchA_freeIndex (v : Byte) : (s.latchA v).freeIndex = s.freeIndex := rfl

/-! ### latchB -/

@[simp] theorem latchB_regs (v : Byte) : (s.latchB v).regs = s.regs := rfl
@[simp] theorem latchB_pc (v : Byte) : (s.latchB v).pc = s.pc := rfl
@[simp] theorem latchB_flags (v : Byte) : (s.latchB v).flags = s.flags := rfl
@[simp] theorem latchB_status (v : Byte) : (s.latchB v).status = s.status := rfl
@[simp] theorem latchB_faultRecord (v : Byte) : (s.latchB v).faultRecord = s.faultRecord := rfl
@[simp] theorem latchB_mem (v : Byte) : (s.latchB v).mem = s.mem := rfl
@[simp] theorem latchB_output (v : Byte) : (s.latchB v).output = s.output := rfl
@[simp] theorem latchB_latch (v : Byte) : (s.latchB v).latch = { s.latch with b := v } := rfl
@[simp] theorem latchB_freeIndex (v : Byte) : (s.latchB v).freeIndex = s.freeIndex := rfl

/-! ### faulted -/

@[simp] theorem faulted_regs (c : FaultCause) (k : FaultSubkind) (n : Nat) : (s.faulted c k n).regs = s.regs := rfl
@[simp] theorem faulted_pc (c : FaultCause) (k : FaultSubkind) (n : Nat) : (s.faulted c k n).pc = s.pc := rfl
@[simp] theorem faulted_flags (c : FaultCause) (k : FaultSubkind) (n : Nat) : (s.faulted c k n).flags = s.flags := rfl
@[simp] theorem faulted_status (c : FaultCause) (k : FaultSubkind) (n : Nat) : (s.faulted c k n).status = .faulted := rfl
@[simp] theorem faulted_faultRecord (c : FaultCause) (k : FaultSubkind) (n : Nat) : (s.faulted c k n).faultRecord = { cause := c, subkind := k, fpc := s.pc, fop := s.latch.op, info := BitVec.ofNat 9 n } := rfl
@[simp] theorem faulted_mem (c : FaultCause) (k : FaultSubkind) (n : Nat) : (s.faulted c k n).mem = s.mem := rfl
@[simp] theorem faulted_output (c : FaultCause) (k : FaultSubkind) (n : Nat) : (s.faulted c k n).output = s.output := rfl
@[simp] theorem faulted_latch (c : FaultCause) (k : FaultSubkind) (n : Nat) : (s.faulted c k n).latch = s.latch := rfl
@[simp] theorem faulted_freeIndex (c : FaultCause) (k : FaultSubkind) (n : Nat) : (s.faulted c k n).freeIndex = s.freeIndex := rfl

/-! ### releaseLatches -/

@[simp] theorem releaseLatches_regs : (s.releaseLatches).regs = s.regs := rfl
@[simp] theorem releaseLatches_pc : (s.releaseLatches).pc = s.pc := rfl
@[simp] theorem releaseLatches_flags : (s.releaseLatches).flags = s.flags := rfl
@[simp] theorem releaseLatches_status : (s.releaseLatches).status = s.status := rfl
@[simp] theorem releaseLatches_faultRecord : (s.releaseLatches).faultRecord = s.faultRecord := rfl
@[simp] theorem releaseLatches_mem : (s.releaseLatches).mem = s.mem := rfl
@[simp] theorem releaseLatches_output : (s.releaseLatches).output = s.output := rfl
@[simp] theorem releaseLatches_latch : (s.releaseLatches).latch = { op := Config.freeByte s.freeIndex, a := Config.freeByte (s.freeIndex + 1), b := Config.freeByte (s.freeIndex + 2) } := rfl
@[simp] theorem releaseLatches_freeIndex : (s.releaseLatches).freeIndex = s.freeIndex + 3 := rfl

/-! ### Register and memory reads across the updates -/

@[simp] theorem memRead_writeReg (r : RegIdx) (v : Byte) (q : Byte) : (s.writeReg r v).memRead q = s.memRead q := rfl
@[simp] theorem readReg_setPc (v : Byte) (q : RegIdx) : (s.setPc v).readReg q = s.readReg q := rfl
@[simp] theorem memRead_setPc (v : Byte) (q : Byte) : (s.setPc v).memRead q = s.memRead q := rfl
@[simp] theorem readReg_setFlags (f : Flags) (q : RegIdx) : (s.setFlags f).readReg q = s.readReg q := rfl
@[simp] theorem memRead_setFlags (f : Flags) (q : Byte) : (s.setFlags f).memRead q = s.memRead q := rfl
@[simp] theorem readReg_setStatus (st : RunStatus) (q : RegIdx) : (s.setStatus st).readReg q = s.readReg q := rfl
@[simp] theorem memRead_setStatus (st : RunStatus) (q : Byte) : (s.setStatus st).memRead q = s.memRead q := rfl
@[simp] theorem readReg_memWrite (a v : Byte) (q : RegIdx) : (s.memWrite a v).readReg q = s.readReg q := rfl
@[simp] theorem readReg_emit (v : Byte) (q : RegIdx) : (s.emit v).readReg q = s.readReg q := rfl
@[simp] theorem memRead_emit (v : Byte) (q : Byte) : (s.emit v).memRead q = s.memRead q := rfl
@[simp] theorem readReg_latchOp (v : Byte) (q : RegIdx) : (s.latchOp v).readReg q = s.readReg q := rfl
@[simp] theorem memRead_latchOp (v : Byte) (q : Byte) : (s.latchOp v).memRead q = s.memRead q := rfl
@[simp] theorem readReg_latchA (v : Byte) (q : RegIdx) : (s.latchA v).readReg q = s.readReg q := rfl
@[simp] theorem memRead_latchA (v : Byte) (q : Byte) : (s.latchA v).memRead q = s.memRead q := rfl
@[simp] theorem readReg_latchB (v : Byte) (q : RegIdx) : (s.latchB v).readReg q = s.readReg q := rfl
@[simp] theorem memRead_latchB (v : Byte) (q : Byte) : (s.latchB v).memRead q = s.memRead q := rfl
@[simp] theorem readReg_faulted (c : FaultCause) (k : FaultSubkind) (n : Nat) (q : RegIdx) : (s.faulted c k n).readReg q = s.readReg q := rfl
@[simp] theorem memRead_faulted (c : FaultCause) (k : FaultSubkind) (n : Nat) (q : Byte) : (s.faulted c k n).memRead q = s.memRead q := rfl
@[simp] theorem readReg_releaseLatches (q : RegIdx) : (s.releaseLatches).readReg q = s.readReg q := rfl
@[simp] theorem memRead_releaseLatches (q : Byte) : (s.releaseLatches).memRead q = s.memRead q := rfl

theorem readReg_writeReg (r q : RegIdx) (v : Byte) :
    (s.writeReg r v).readReg q = if q = r then v else s.readReg q := by
  simp only [readReg, writeReg, Fin.getElem_fin, Vector.getElem_set, Fin.ext_iff, eq_comm]

@[simp] theorem readReg_writeReg_same (r : RegIdx) (v : Byte) : (s.writeReg r v).readReg r = v := by
  simp [readReg_writeReg]

theorem readReg_writeReg_other {r q : RegIdx} (v : Byte) (h : q ≠ r) :
    (s.writeReg r v).readReg q = s.readReg q := by
  simp [readReg_writeReg, h]

/-! ### The stack pointer controller -/

@[simp] theorem decSp_regs : s.decSp.regs = s.regs.set Config.spIndex (u8 ((s.sp.toNat : Int) - 1)) := rfl
@[simp] theorem decSp_pc : s.decSp.pc = s.pc := rfl
@[simp] theorem decSp_flags : s.decSp.flags = s.flags := rfl
@[simp] theorem decSp_status : s.decSp.status = s.status := rfl
@[simp] theorem decSp_faultRecord : s.decSp.faultRecord = s.faultRecord := rfl
@[simp] theorem decSp_mem : s.decSp.mem = s.mem := rfl
@[simp] theorem decSp_output : s.decSp.output = s.output := rfl
@[simp] theorem decSp_latch : s.decSp.latch = s.latch := rfl
@[simp] theorem decSp_freeIndex : s.decSp.freeIndex = s.freeIndex := rfl
@[simp] theorem sp_decSp : s.decSp.sp = u8 ((s.sp.toNat : Int) - 1) := readReg_writeReg_same s _ _
@[simp] theorem memRead_decSp (q : Byte) : s.decSp.memRead q = s.memRead q := rfl
theorem readReg_decSp {q : RegIdx} (h : q ≠ Config.spIndex) : s.decSp.readReg q = s.readReg q :=
  readReg_writeReg_other s _ h

@[simp] theorem incSp_regs : s.incSp.regs = s.regs.set Config.spIndex (u8 ((s.sp.toNat : Int) + 1)) := rfl
@[simp] theorem incSp_pc : s.incSp.pc = s.pc := rfl
@[simp] theorem incSp_flags : s.incSp.flags = s.flags := rfl
@[simp] theorem incSp_status : s.incSp.status = s.status := rfl
@[simp] theorem incSp_faultRecord : s.incSp.faultRecord = s.faultRecord := rfl
@[simp] theorem incSp_mem : s.incSp.mem = s.mem := rfl
@[simp] theorem incSp_output : s.incSp.output = s.output := rfl
@[simp] theorem incSp_latch : s.incSp.latch = s.latch := rfl
@[simp] theorem incSp_freeIndex : s.incSp.freeIndex = s.freeIndex := rfl
@[simp] theorem sp_incSp : s.incSp.sp = u8 ((s.sp.toNat : Int) + 1) := readReg_writeReg_same s _ _
@[simp] theorem memRead_incSp (q : Byte) : s.incSp.memRead q = s.memRead q := rfl
theorem readReg_incSp {q : RegIdx} (h : q ≠ Config.spIndex) : s.incSp.readReg q = s.readReg q :=
  readReg_writeReg_other s _ h

@[simp] theorem push_regs (v : State → Byte) : (s.push v).regs = s.decSp.regs := rfl
@[simp] theorem push_pc (v : State → Byte) : (s.push v).pc = s.pc := rfl
@[simp] theorem push_flags (v : State → Byte) : (s.push v).flags = s.flags := rfl
@[simp] theorem push_status (v : State → Byte) : (s.push v).status = s.status := rfl
@[simp] theorem push_faultRecord (v : State → Byte) : (s.push v).faultRecord = s.faultRecord := rfl
@[simp] theorem push_mem (v : State → Byte) : (s.push v).mem = s.mem.write s.decSp.sp.toNat (v s.decSp) := rfl
@[simp] theorem push_output (v : State → Byte) : (s.push v).output = s.output := rfl
@[simp] theorem push_latch (v : State → Byte) : (s.push v).latch = s.latch := rfl
@[simp] theorem push_freeIndex (v : State → Byte) : (s.push v).freeIndex = s.freeIndex := rfl
@[simp] theorem readReg_push (v : State → Byte) (q : RegIdx) : (s.push v).readReg q = s.decSp.readReg q := rfl
@[simp] theorem sp_push (v : State → Byte) : (s.push v).sp = s.decSp.sp := rfl

@[simp] theorem pop_pc (dest : State → Byte → State) : (s.pop dest).pc = (dest s (s.memRead s.sp)).pc := rfl
@[simp] theorem pop_flags (dest : State → Byte → State) : (s.pop dest).flags = (dest s (s.memRead s.sp)).flags := rfl
@[simp] theorem pop_status (dest : State → Byte → State) : (s.pop dest).status = (dest s (s.memRead s.sp)).status := rfl
@[simp] theorem pop_faultRecord (dest : State → Byte → State) : (s.pop dest).faultRecord = (dest s (s.memRead s.sp)).faultRecord := rfl
@[simp] theorem pop_mem (dest : State → Byte → State) : (s.pop dest).mem = (dest s (s.memRead s.sp)).mem := rfl
@[simp] theorem pop_output (dest : State → Byte → State) : (s.pop dest).output = (dest s (s.memRead s.sp)).output := rfl
@[simp] theorem pop_latch (dest : State → Byte → State) : (s.pop dest).latch = (dest s (s.memRead s.sp)).latch := rfl
@[simp] theorem pop_freeIndex (dest : State → Byte → State) : (s.pop dest).freeIndex = (dest s (s.memRead s.sp)).freeIndex := rfl

end Sys2Proof.Machine.State
end

