-- ==== Sys2Proof/Laws/Operands.lean ====
section
/-! SUPPORT. What narrowing, the register-field check and the sequential-pc check do, each said once. -/

namespace Sys2Proof.Machine

/-! ### `u8` (R9) -/

@[simp] theorem u8_natCast (n : Nat) : u8 (n : Int) = BitVec.ofNat 8 n := by simp [u8]

theorem u8_add_toNat (x y : Byte) : u8 ((x.toNat : Int) + y.toNat) = BitVec.ofNat 8 (x.toNat + y.toNat) := by
  rw [← u8_natCast, Int.natCast_add]

theorem u8_mul_toNat (x y : Byte) : u8 ((x.toNat : Int) * y.toNat) = BitVec.ofNat 8 (x.toNat * y.toNat) := by
  rw [← u8_natCast, Int.natCast_mul]

@[simp] theorem u8_succ (x : Byte) : u8 ((x.toNat : Int) + 1) = x + 1 := by
  apply BitVec.eq_of_toNat_eq; simp [u8, BitVec.toNat_ofInt]; omega

@[simp] theorem u8_pred (x : Byte) : u8 ((x.toNat : Int) - 1) = x - 1 := by
  apply BitVec.eq_of_toNat_eq; simp [u8, BitVec.toNat_ofInt, BitVec.toNat_sub]; omega

/-- Narrowing an address of the fetch window or of a sequential pc is byte addition. -/
theorem ofNat_toNat_add (x : Byte) (n : Nat) : BitVec.ofNat 8 (x.toNat + n) = x + BitVec.ofNat 8 n := by
  apply BitVec.eq_of_toNat_eq; simp

/-! ### Register fields (R39, R44, R59) -/

theorem regIndex?_legal {f : RegField} (h : f.toNat < 8) : regIndex? f = some ⟨f.toNat, h⟩ := dif_pos h

theorem regIndex?_illegal {f : RegField} (h : 7 < f.toNat) : regIndex? f = none := dif_neg (by omega)

theorem withReg_legal {f : RegField} (h : f.toNat < 8) (s : State) (k : RegIdx → Result) :
    withReg f s k = k ⟨f.toNat, h⟩ := by rw [withReg, regIndex?_legal h]

theorem withReg_illegal {f : RegField} (h : 7 < f.toNat) (s : State) (k : RegIdx → Result) :
    withReg f s k = .next (s.faulted .outOfRange .register f.toNat) := by
  rw [withReg, regIndex?_illegal h, raiseFault]

/-! ### The sequential pc (R60) -/

theorem withNextPc_fits {w : Nat} {s : State} (h : s.pc.toNat + w ≤ 255) (k : Byte → Result) :
    withNextPc w s k = k (s.pc + BitVec.ofNat 8 w) := by
  rw [withNextPc, if_neg (Nat.not_lt.2 h), ofNat_toNat_add]

theorem withNextPc_over {w : Nat} {s : State} (h : 255 < s.pc.toNat + w) (k : Byte → Result) :
    withNextPc w s k = .next (s.faulted .outOfRange .address (s.pc.toNat + w)) := by
  rw [withNextPc, if_pos h, raiseFault]

/-! ### Inversion: the two faults an instruction can raise by its operands -/

/-- `t` is what `s` becomes when a register field over 7, or a sequential pc over 255, faults. -/
def OperandFault (s t : State) : Prop :=
  (∃ f : Byte, 7 < f.toNat ∧ t = s.faulted .outOfRange .register f.toNat) ∨
  (∃ w, w ≤ 3 ∧ 255 < s.pc.toNat + w ∧ t = s.faulted .outOfRange .address (s.pc.toNat + w))

theorem withReg_next {f : RegField} {s t : State} {k : RegIdx → Result} (h : withReg f s k = .next t) :
    (∃ hf : f.toNat < 8, k ⟨f.toNat, hf⟩ = .next t) ∨ OperandFault s t := by
  by_cases hf : f.toNat < 8
  · exact .inl ⟨hf, by rwa [withReg_legal hf] at h⟩
  · rw [withReg_illegal (by omega), Host.Outcome.next.injEq] at h
    exact .inr (.inl ⟨f, by omega, h.symm⟩)

theorem withNextPc_next {w : Nat} {s t : State} {k : Byte → Result} (hw : w ≤ 3) (h : withNextPc w s k = .next t) :
    (s.pc.toNat + w ≤ 255 ∧ k (s.pc + BitVec.ofNat 8 w) = .next t) ∨ OperandFault s t := by
  by_cases hp : s.pc.toNat + w ≤ 255
  · exact .inl ⟨hp, by rwa [withNextPc_fits hp] at h⟩
  · rw [withNextPc_over (by omega), Host.Outcome.next.injEq] at h
    exact .inr (.inr ⟨w, hw, by omega, h.symm⟩)

end Sys2Proof.Machine
end

