-- ==== Sys2Proof/Laws/Exec.lean ====
section
/-! SUPPORT. One inversion lemma per meaning: if it answers a next state, then the instruction completed with the
effect its rule gives, or one of its operands faulted. Later proofs cite these and never unfold a meaning. -/

namespace Sys2Proof.Machine

theorem Result.next_inj {s t : State} (h : (Host.Outcome.next s : Result) = .next t) : t = s :=
  (Host.Outcome.next.inj h).symm

/-- The register a legal field names. -/
abbrev fieldReg (f : RegField) (h : f.toNat < 8) : RegIdx := ⟨f.toNat, h⟩

variable {a b imm : Byte} {s t : State}

theorem execHlt_next (h : execHlt s = .next t) :
    (s.pc.toNat + 1 ≤ 255 ∧ t = (s.setPc (s.pc + 1)).setStatus .halted) ∨ OperandFault s t := by
  rcases withNextPc_next (by decide) h with ⟨hp, h⟩ | h
  · exact .inl ⟨hp, Result.next_inj h⟩
  · exact .inr h

theorem execLdi_next (h : execLdi a imm s = .next t) :
    (∃ ha, s.pc.toNat + 3 ≤ 255 ∧ t = (s.writeReg (fieldReg a ha) imm).setPc (s.pc + 3)) ∨ OperandFault s t := by
  rcases withReg_next h with ⟨ha, h⟩ | h
  · rcases withNextPc_next (by decide) h with ⟨hp, h⟩ | h
    · exact .inl ⟨ha, hp, Result.next_inj h⟩
    · exact .inr h
  · exact .inr h

theorem execPrn_next (h : execPrn a s = .next t) :
    (∃ ha, s.pc.toNat + 2 ≤ 255 ∧ t = (s.emit (s.readReg (fieldReg a ha))).setPc (s.pc + 2)) ∨ OperandFault s t := by
  rcases withReg_next h with ⟨ha, h⟩ | h
  · rcases withNextPc_next (by decide) h with ⟨hp, h⟩ | h
    · exact .inl ⟨ha, hp, Result.next_inj h⟩
    · exact .inr h
  · exact .inr h

/-- The inversion of every F2R instruction, over what its ALU tag computes. -/
theorem execAlu_next {tag : BitVec 2} (f : RegIdx → RegIdx → State) (hf : ∀ ra rb, alu tag ra rb s = some (f ra rb))
    (h : execAlu tag a b s = .next t) :
    (∃ ha hb, s.pc.toNat + 3 ≤ 255 ∧ t = (f (fieldReg a ha) (fieldReg b hb)).setPc (s.pc + 3)) ∨
      OperandFault s t := by
  rcases withReg_next h with ⟨ha, h⟩ | h
  · rcases withReg_next h with ⟨hb, h⟩ | h
    · rcases withNextPc_next (by decide) h with ⟨hp, h⟩ | h
      · rw [hf] at h
        exact .inl ⟨ha, hb, hp, Result.next_inj h⟩
      · exact .inr h
    · exact .inr h
  · exact .inr h

theorem execAdd_next (h : execAdd a b s = .next t) :
    (∃ ha hb, s.pc.toNat + 3 ≤ 255 ∧ t = (s.writeReg (fieldReg a ha) (BitVec.ofNat 8
      ((s.readReg (fieldReg a ha)).toNat + (s.readReg (fieldReg b hb)).toNat))).setPc (s.pc + 3)) ∨ OperandFault s t :=
  execAlu_next _ (fun ra rb => by simp only [alu, if_true, u8_add_toNat]; rfl) h

theorem execMul_next (h : execMul a b s = .next t) :
    (∃ ha hb, s.pc.toNat + 3 ≤ 255 ∧ t = (s.writeReg (fieldReg a ha) (BitVec.ofNat 8
      ((s.readReg (fieldReg a ha)).toNat * (s.readReg (fieldReg b hb)).toNat))).setPc (s.pc + 3)) ∨ OperandFault s t :=
  execAlu_next _ (fun ra rb => by simp only [alu, u8_mul_toNat]; rfl) h

theorem execCmp_next (h : execCmp a b s = .next t) :
    (∃ ha hb, s.pc.toNat + 3 ≤ 255 ∧ t = (s.setFlags (compareFlags .clear
      (s.readReg (fieldReg a ha)) (s.readReg (fieldReg b hb)) s.flags)).setPc (s.pc + 3)) ∨ OperandFault s t :=
  execAlu_next _ (fun _ _ => rfl) h

theorem execPush_next (h : execPush a s = .next t) :
    (∃ ha, s.pc.toNat + 2 ≤ 255 ∧ t = (s.push (State.readReg · (fieldReg a ha))).setPc (s.pc + 2)) ∨
      OperandFault s t := by
  rcases withReg_next h with ⟨ha, h⟩ | h
  · rcases withNextPc_next (by decide) h with ⟨hp, h⟩ | h
    · exact .inl ⟨ha, hp, Result.next_inj h⟩
    · exact .inr h
  · exact .inr h

theorem execPop_next (h : execPop a s = .next t) :
    (∃ ha, s.pc.toNat + 2 ≤ 255 ∧ t = (s.pop (State.writeReg · (fieldReg a ha))).setPc (s.pc + 2)) ∨
      OperandFault s t := by
  rcases withReg_next h with ⟨ha, h⟩ | h
  · rcases withNextPc_next (by decide) h with ⟨hp, h⟩ | h
    · exact .inl ⟨ha, hp, Result.next_inj h⟩
    · exact .inr h
  · exact .inr h

theorem execCall_next (h : execCall a s = .next t) :
    (∃ ha, t = (s.push returnAddress).setPc ((s.push returnAddress).readReg (fieldReg a ha))) ∨
      OperandFault s t := by
  rcases withReg_next h with ⟨ha, h⟩ | h
  · exact .inl ⟨ha, Result.next_inj h⟩
  · exact .inr h

theorem execRet_next (h : execRet s = .next t) : t = s.pop State.setPc := Result.next_inj h

/-- The inversion of the three jumps: taken to x[A], or fallen through. -/
theorem jumpIf_next {taken : Bool} (h : jumpIf taken a s = .next t) :
    (∃ ha, taken = true ∧ t = s.setPc (s.readReg (fieldReg a ha))) ∨
    (taken = false ∧ s.pc.toNat + 2 ≤ 255 ∧ t = s.setPc (s.pc + 2)) ∨ OperandFault s t := by
  rcases withReg_next h with ⟨ha, h⟩ | h
  · cases taken with
    | true => exact .inl ⟨ha, rfl, Result.next_inj h⟩
    | false =>
      rw [if_neg Bool.false_ne_true] at h
      rcases withNextPc_next (by decide) h with ⟨hp, h⟩ | h
      · exact .inr (.inl ⟨rfl, hp, Result.next_inj h⟩)
      · exact .inr (.inr h)
  · exact .inr (.inr h)

theorem execJmp_next (h : execJmp a s = .next t) :
    (∃ ha, t = s.setPc (s.readReg (fieldReg a ha))) ∨ OperandFault s t := by
  rcases jumpIf_next h with ⟨ha, _, h⟩ | ⟨h, _⟩ | h
  · exact .inl ⟨ha, h⟩
  · exact absurd h (by decide)
  · exact .inr h

/-- No meaning stops without a next state. -/
theorem withReg_total {f : RegField} {k : RegIdx → Result} (hk : ∀ r, ∃ t, k r = .next t) :
    ∃ t, withReg f s k = .next t := by
  rw [withReg]; split
  · exact hk _
  · exact ⟨_, rfl⟩

theorem withNextPc_total {w : Nat} {k : Byte → Result} (hk : ∀ p, ∃ t, k p = .next t) :
    ∃ t, withNextPc w s k = .next t := by
  rw [withNextPc]; split
  · exact ⟨_, rfl⟩
  · exact hk _

end Sys2Proof.Machine
end

