-- ==== Sys2Proof/Laws/Cycle.lean ====
section
/-! SUPPORT. What one step can do, said once: idle, one of the fetch and decode faults, or the decoded instruction. -/

namespace Sys2Proof.Machine

/-- `s` with the fetch window of three bytes latched (R26, R56). -/
def State.fetched (s : State) : State :=
  { s with latch := { op := s.memRead s.pc, a := s.memRead (s.pc + 1), b := s.memRead (s.pc + 2) } }

variable {s t : State}

/-- Inside memory the window's addresses do not wrap (R57). -/
theorem memRead_pc_one (h : s.pc.toNat ≤ 253) : s.memRead (s.pc + 1) = s.mem.read (s.pc.toNat + 1) := by
  have : (s.pc + 1).toNat = s.pc.toNat + 1 := by rw [BitVec.toNat_add]; simp; omega
  rw [State.memRead, this]

@[inherit_doc memRead_pc_one]
theorem memRead_pc_two (h : s.pc.toNat ≤ 253) : s.memRead (s.pc + 2) = s.mem.read (s.pc.toNat + 2) := by
  have : (s.pc + 2).toNat = s.pc.toNat + 2 := by rw [BitVec.toNat_add]; simp; omega
  rw [State.memRead, this]

theorem fetchWindow_inside (h : s.pc.toNat ≤ 253) (k : State → Result) : fetchWindow s k = k s.fetched := by
  rw [fetchWindow, if_neg (by simp only [Config.addrMax]; omega), if_neg (by simp only [Config.addrMax]; omega),
    ofNat_toNat_add, ofNat_toNat_add]
  rfl

/-- Past the top only byte 0, or bytes 0 and 1, of the window are latched, and the fault names address 256 (R57). -/
theorem fetchWindow_outside (h : 254 ≤ s.pc.toNat) (k : State → Result) :
    ∃ latch, latch.op = s.memRead s.pc ∧
      fetchWindow s k = .next ({ s with latch := latch }.faulted .outOfRange .address 256) := by
  by_cases h1 : 255 < s.pc.toNat + 1
  · have : s.pc.toNat + 1 = 256 := by have := s.pc.isLt; omega
    exact ⟨_, rfl, by rw [fetchWindow, if_pos h1, raiseFault, this]; rfl⟩
  · have h2 : s.pc.toNat + 2 = 256 := by omega
    exact ⟨_, rfl, by rw [fetchWindow, if_neg h1, if_pos (by simp only [Config.addrMax]; omega), raiseFault, h2]; rfl⟩

theorem dispatch_ok {i : Instr} (h : decodeWindow s.latch.op s.latch.a s.latch.b = .ok i) : dispatch s = exec i s := by
  rw [dispatch, h]

theorem dispatch_error {e : DecodeError} (h : decodeWindow s.latch.op s.latch.a s.latch.b = .error e) :
    dispatch s = .next (s.faulted .unsupportedInstruction .address s.latch.op.toNat) := by
  rw [dispatch, h]; rfl

theorem step_idle (h : s.status ≠ .running) : step s = .next s := by rw [step, if_neg h, idle]

theorem step_running (h : s.status = .running) : step s = andThen (fetchWindow s dispatch) State.releaseLatches := by
  rw [step, if_pos h, cycle]

/-- One whole instruction, from the window at the pc (R55). -/
theorem step_decoded {i : Instr} (hr : s.status = .running) (hp : s.pc.toNat ≤ 253)
    (hd : decodeWindow (s.memRead s.pc) (s.memRead (s.pc + 1)) (s.memRead (s.pc + 2)) = .ok i) :
    step s = andThen (exec i s.fetched) State.releaseLatches := by
  rw [step_running hr, fetchWindow_inside hp, dispatch_ok (i := i) hd]

theorem step_unlisted {e : DecodeError} (hr : s.status = .running) (hp : s.pc.toNat ≤ 253)
    (hd : decodeWindow (s.memRead s.pc) (s.memRead (s.pc + 1)) (s.memRead (s.pc + 2)) = .error e) :
    step s = .next
      (s.fetched.faulted .unsupportedInstruction .address (s.memRead s.pc).toNat).releaseLatches := by
  rw [step_running hr, fetchWindow_inside hp, dispatch_error (e := e) hd]; rfl

theorem step_outside (hr : s.status = .running) (hp : 254 ≤ s.pc.toNat) :
    ∃ latch, latch.op = s.memRead s.pc ∧
      step s = .next ({ s with latch := latch }.faulted .outOfRange .address 256).releaseLatches := by
  obtain ⟨latch, hop, h⟩ := fetchWindow_outside hp dispatch
  exact ⟨latch, hop, by rw [step_running hr, h]; rfl⟩

theorem andThen_next {o : Result} {f : State → State} (h : andThen o f = .next t) : ∃ u, o = .next u ∧ t = f u := by
  cases o with
  | next u => exact ⟨u, rfl, (Host.Outcome.next.inj h).symm⟩
  | fault r => cases r
  | refused r => cases h

/-- The inversion of `step`: everything a step can do. -/
theorem step_cases (h : step s = .next t) :
    (s.status ≠ .running ∧ t = s) ∨
    (s.status = .running ∧ 254 ≤ s.pc.toNat ∧ ∃ latch, latch.op = s.memRead s.pc ∧
      t = ({ s with latch := latch }.faulted .outOfRange .address 256).releaseLatches) ∨
    (s.status = .running ∧ s.pc.toNat ≤ 253 ∧
      (∃ e, decodeWindow (s.memRead s.pc) (s.memRead (s.pc + 1)) (s.memRead (s.pc + 2)) = .error e) ∧
      t = (s.fetched.faulted .unsupportedInstruction .address (s.memRead s.pc).toNat).releaseLatches) ∨
    (s.status = .running ∧ s.pc.toNat ≤ 253 ∧ ∃ i u,
      decodeWindow (s.memRead s.pc) (s.memRead (s.pc + 1)) (s.memRead (s.pc + 2)) = .ok i ∧
      exec i s.fetched = .next u ∧ t = u.releaseLatches) := by
  by_cases hr : s.status = .running
  · right
    by_cases hp : s.pc.toNat ≤ 253
    · right
      cases hd : decodeWindow (s.memRead s.pc) (s.memRead (s.pc + 1)) (s.memRead (s.pc + 2)) with
      | error e =>
        rw [step_unlisted hr hp hd] at h
        exact .inl ⟨hr, hp, ⟨e, rfl⟩, Result.next_inj h⟩
      | ok i =>
        rw [step_decoded hr hp hd] at h
        obtain ⟨u, hu, rfl⟩ := andThen_next h
        exact .inr ⟨hr, hp, i, u, rfl, hu, rfl⟩
    · obtain ⟨latch, hop, hs⟩ := step_outside hr (by omega)
      rw [hs] at h
      exact .inl ⟨hr, by omega, latch, hop, Result.next_inj h⟩
  · rw [step_idle hr] at h
    exact .inl ⟨hr, Result.next_inj h⟩

end Sys2Proof.Machine
end

