-- ==== Sys2Proof/Laws/Decode.lean ====
section
/-! SUPPORT. The dispatch decoder as a fact about each opcode byte, and what the opcode map says of the instructions it selects. -/

namespace Sys2Proof

/-- No two entries of the opcode map have the same opcode, so the order of the map does not matter (R41). -/
theorem opcodeMap_opcodes_distinct : (opcodeMap.map Prod.fst).Pairwise (· ≠ ·) := by decide

/-- The decoder gives the instruction of the opcode's entry, and rejects an opcode that has none by name (R58). -/
theorem decodeWindow_cases (op a b : Byte) :
    (∃ select, (op, select) ∈ opcodeMap ∧ decodeWindow op a b = .ok (select a b)) ∨
    (op ∉ opcodeMap.map Prod.fst ∧ decodeWindow op a b = .error (.unsupportedInstruction op)) := by
  rw [decodeWindow]
  cases h : opcodeMap.lookup op with
  | some select =>
    refine .inl ⟨select, ?_, rfl⟩
    obtain ⟨l₁, l₂, hl, _⟩ := List.lookup_eq_some_iff.1 h
    exact hl ▸ by simp
  | none =>
    refine .inr ⟨?_, rfl⟩
    intro hm
    obtain ⟨⟨k, select⟩, hks, rfl⟩ := List.mem_map.1 hm
    have := List.lookup_eq_none_iff.1 h _ hks
    simp at this

/-- Each entry of the map selects instructions of its own opcode, whose operand bytes are A, or A and B, in the order
they were fetched (R38, R41). -/
theorem opcodeMap_sound : ∀ entry ∈ opcodeMap, ∀ a b : Byte,
    (entry.2 a b).opcode = entry.1 ∧ (entry.2 a b).operands <+: [a, b] := by
  simp [opcodeMap, Instr.opcode, Instr.operands]

/-- What a window decodes to has the window's opcode byte, and its operand bytes are the first fetched fields, none
swapped, none dropped (R38, R41, R58). -/
theorem decodeWindow_ok {op a b : Byte} {i : Instr} (h : decodeWindow op a b = .ok i) :
    i.opcode = op ∧ i.operands <+: [a, b] := by
  rcases decodeWindow_cases op a b with ⟨select, hm, hs⟩ | ⟨_, hs⟩
  · rw [h, Except.ok.injEq] at hs
    exact hs ▸ opcodeMap_sound _ hm a b
  · rw [h] at hs; cases hs

/-- The rejected opcode bytes (R43). -/
theorem decodeWindow_error {op a b : Byte} {e : DecodeError} (h : decodeWindow op a b = .error e) :
    op ∉ opcodeMap.map Prod.fst ∧ e = .unsupportedInstruction op := by
  rcases decodeWindow_cases op a b with ⟨select, _, hs⟩ | ⟨hn, hs⟩
  · rw [h] at hs; cases hs
  · rw [h, Except.error.injEq] at hs; exact ⟨hn, hs⟩

end Sys2Proof
end

