-- ==== Sys2Proof/Laws/Memory.lean ====
section
/-! SUPPORT. The laws of memory: read after write, the canonical form kept by every memory operation, and equal
reads of canonical memories mean equal memories. -/

namespace Sys2Proof.Machine.Memory

/-! ### The canonical form -/

theorem wfFrom_nil (lo : Nat) : wfFrom lo [] = true := rfl

@[simp] theorem wfFrom_cons (lo a : Nat) (v : Byte) (m : Memory) :
    wfFrom lo ((a, v) :: m) = true ↔ lo ≤ a ∧ a ≤ 255 ∧ v ≠ 0#8 ∧ wfFrom (a + 1) m = true := by
  simp [wfFrom, and_assoc]

theorem wfFrom_mono {lo lo' : Nat} {m : Memory} (h : lo' ≤ lo) (hm : wfFrom lo m = true) : wfFrom lo' m = true := by
  cases m with
  | nil => rfl
  | cons c m =>
    obtain ⟨a, v⟩ := c
    rw [wfFrom_cons] at *
    exact ⟨h.trans hm.1, hm.2⟩

/-- Below the canonical form's first possible address nothing is listed. -/
theorem read_below {lo a : Nat} {m : Memory} (hm : wfFrom lo m = true) (ha : a < lo) : read m a = 0#8 := by
  induction m generalizing lo with
  | nil => rfl
  | cons c m ih =>
    obtain ⟨b, w⟩ := c
    rw [wfFrom_cons] at hm
    rw [read, if_neg (by omega)]
    exact ih hm.2.2.2 (by omega)

theorem wfFrom_write {lo a : Nat} {m : Memory} (v : Byte) (hm : wfFrom lo m = true) (hlo : lo ≤ a) (ha : a ≤ 255) :
    wfFrom lo (write m a v) = true := by
  induction m generalizing lo with
  | nil => by_cases hv : v = 0#8 <;> simp [write, hv, hlo, ha, wfFrom_nil]
  | cons c m ih =>
    obtain ⟨b, w⟩ := c
    have hm' := (wfFrom_cons lo b w m).1 hm
    rcases Nat.lt_trichotomy a b with hab | rfl | hab
    · by_cases hv : v = 0#8
      · simpa [write, hab, hv] using hm'
      · have hab' : a + 1 ≤ b := hab
        simp [write, hab, hv, hlo, ha, hab', hm'.2.2.1, hm'.2.2.2, hm'.2.1]
    · by_cases hv : v = 0#8
      · simpa [write, hv] using wfFrom_mono (by omega) hm'.2.2.2
      · simp [write, hv, hlo, ha, hm'.2.2.2]
    · rw [write, if_neg (by omega), if_neg (by omega), wfFrom_cons]
      exact ⟨hm'.1, hm'.2.1, hm'.2.2.1, ih hm'.2.2.2 (by omega)⟩

/-- A write keeps the canonical form. -/
theorem wf_write {a : Nat} {m : Memory} (v : Byte) (hm : m.wf = true) (ha : a ≤ 255) : (m.write a v).wf = true :=
  wfFrom_write v hm (Nat.zero_le _) ha

/-- Placing bytes keeps the canonical form. -/
theorem wf_place {m : Memory} (a : Nat) (vs : List Byte) (hm : m.wf = true) : (m.place a vs).wf = true := by
  induction vs generalizing m a with
  | nil => exact hm
  | cons v vs ih =>
    rw [place]
    split
    · exact ih _ (wf_write v hm ‹_›)
    · exact ih _ hm

theorem wf_reset : State.reset.mem.wf = true := rfl

/-! ### Read after write -/

theorem read_write_from {lo a b : Nat} {m : Memory} (v : Byte) (hm : wfFrom lo m = true) :
    read (write m a v) b = if b = a then v else read m b := by
  induction m generalizing lo with
  | nil => by_cases hv : v = 0#8 <;> simp [write, read, hv, eq_comm (a := a)]
  | cons c m ih =>
    obtain ⟨k, w⟩ := c
    have hm' := (wfFrom_cons lo k w m).1 hm
    have below : ∀ x, x < k + 1 → read m x = 0#8 := fun x hx => read_below hm'.2.2.2 hx
    rcases Nat.lt_trichotomy a k with hak | rfl | hak
    · by_cases hv : v = 0#8
      · by_cases hb : b = a
        · subst hb; simp [write, hak, hv, read, below b (by omega), show k ≠ b by omega]
        · simp [write, hak, hv, hb]
      · simp [write, hak, hv, read, eq_comm (a := a)]
    · by_cases hv : v = 0#8
      · by_cases hb : b = a
        · subst hb; simp [write, hv, below b (by omega)]
        · simp [write, hv, hb, read, eq_comm (a := a)]
      · by_cases hb : b = a
        · simp [write, hv, read, hb]
        · simp [write, hv, read, hb, eq_comm (a := a)]
    · rw [write, if_neg (by omega), if_neg (by omega), read, ih hm'.2.2.2, read]
      split <;> split <;> first | rfl | omega

/-- A read returns the byte last written to its address, and a write leaves every other address alone (R33). -/
theorem read_write {a b : Nat} {m : Memory} (v : Byte) (hm : m.wf = true) :
    (m.write a v).read b = if b = a then v else m.read b :=
  read_write_from v hm

/-! ### Canonical memories are determined by their reads -/

theorem ext_from {lo : Nat} {m m' : Memory} (hm : wfFrom lo m = true) (hm' : wfFrom lo m' = true)
    (h : ∀ a, read m a = read m' a) : m = m' := by
  induction m generalizing lo m' with
  | nil =>
    cases m' with
    | nil => rfl
    | cons c m' =>
      obtain ⟨a, v⟩ := c
      have := h a
      simp only [read, if_pos] at this
      exact absurd this.symm ((wfFrom_cons ..).1 hm').2.2.1
  | cons c m ih =>
    obtain ⟨a, v⟩ := c
    have hc := (wfFrom_cons ..).1 hm
    cases m' with
    | nil =>
      have := h a
      simp only [read, if_pos] at this
      exact absurd this hc.2.2.1
    | cons c' m' =>
      obtain ⟨b, w⟩ := c'
      have hc' := (wfFrom_cons ..).1 hm'
      rcases Nat.lt_trichotomy a b with hab | rfl | hab
      · have := h a
        rw [read, if_pos rfl, read, if_neg (by omega), read_below hc'.2.2.2 (by omega)] at this
        exact absurd this hc.2.2.1
      · have hvw : v = w := by simpa [read] using h a
        subst hvw
        rw [ih hc.2.2.2 hc'.2.2.2 fun x => ?_]
        by_cases hx : x = a
        · rw [hx, read_below hc.2.2.2 (by omega), read_below hc'.2.2.2 (by omega)]
        · simpa [read, Ne.symm hx] using h x
      · have := h b
        rw [read, if_neg (by omega), read_below hc.2.2.2 (by omega), read, if_pos rfl] at this
        exact absurd this.symm hc'.2.2.1

/-- Equal reads of canonical memories mean equal memories. -/
theorem wf_ext {m m' : Memory} (hm : m.wf = true) (hm' : m'.wf = true) (h : ∀ a, m.read a = m'.read a) : m = m' :=
  ext_from hm hm' h

/-! ### Placing bytes -/

/-- A placed byte reads back, and every other address reads as before (R102). -/
theorem read_place {m : Memory} (a b : Nat) (vs : List Byte) (hm : m.wf = true) (hb : b ≤ 255) :
    (m.place a vs).read b = if a ≤ b then (vs[b - a]?).getD (m.read b) else m.read b := by
  induction vs generalizing m a with
  | nil => simp [place]
  | cons v vs ih =>
    rw [place]
    split
    · rw [ih _ (wf_write v hm ‹_›), read_write v hm]
      rcases Nat.lt_trichotomy a b with hab | rfl | hab
      · obtain ⟨d, rfl⟩ : ∃ d, b = a + 1 + d := ⟨b - (a + 1), by omega⟩
        have h1 : a + 1 + d - a = d + 1 := by omega
        have h2 : a + 1 + d - (a + 1) = d := by omega
        have h3 : a + 1 + d ≠ a := by omega
        simp [h1, h2, h3, hab.le]
      · simp
      · simp [show ¬a + 1 ≤ b by omega, show b ≠ a by omega, show ¬a ≤ b by omega]
    · rw [ih _ hm]
      have : 255 < a := Nat.lt_of_not_le ‹_›
      simp [show ¬a + 1 ≤ b by omega, show ¬a ≤ b by omega]

end Sys2Proof.Machine.Memory
end

