-- ==== Sys2Proof/Laws/Frame.lean ====
section
/-! SUPPORT. What an instruction leaves alone, for all instructions at once: one lemma per piece of state, each by the
inversion lemmas of Laws/Exec.lean. -/

namespace Sys2Proof.Machine

/-! ### The stack pointer controller as a register update -/

theorem State.decSp_eq (s : State) : s.decSp = { s with regs := s.regs.set 7 (s.regs[7] - 1) } := by
  rw [State.decSp, u8_pred]; rfl

theorem State.incSp_eq (s : State) : s.incSp = { s with regs := s.regs.set 7 (s.regs[7] + 1) } := by
  rw [State.incSp, u8_succ]; rfl

variable {i : Instr} {s t : State}

/-! ### A fault by an operand (R64, R91) -/

theorem OperandFault.status (h : OperandFault s t) : t.status = .faulted := by
  rcases h with ⟨f, _, rfl⟩ | ⟨w, _, _, rfl⟩ <;> rfl

theorem OperandFault.fop (h : OperandFault s t) : t.faultRecord.fop = s.latch.op := by
  rcases h with ⟨f, _, rfl⟩ | ⟨w, _, _, rfl⟩ <;> rfl

theorem OperandFault.cause (h : OperandFault s t) : t.faultRecord.cause = .outOfRange := by
  rcases h with ⟨f, _, rfl⟩ | ⟨w, _, _, rfl⟩ <;> rfl

/-- A fault by an operand changes `status` and the record only. -/
theorem OperandFault.rest (h : OperandFault s t) :
    t = { s with status := t.status, faultRecord := t.faultRecord } := by
  rcases h with ⟨f, _, rfl⟩ | ⟨w, _, _, rfl⟩ <;> rfl

theorem OperandFault.flags (h : OperandFault s t) : t.flags = s.flags := by rw [h.rest]

theorem OperandFault.mem (h : OperandFault s t) : t.mem = s.mem := by rw [h.rest]

theorem OperandFault.output (h : OperandFault s t) : t.output = s.output := by rw [h.rest]

/-! ### Flags, memory, output: who writes them (R20, R27, R52) -/

/-- Only CMP writes the flags. -/
theorem exec_flags (h : exec i s = .next t) (hi : ∀ a b, i ≠ .cmp a b) : t.flags = s.flags := by
  cases i with
  | hlt => rcases execHlt_next h with ⟨_, rfl⟩ | h; exacts [rfl, h.flags]
  | ldi a v => rcases execLdi_next h with ⟨_, _, rfl⟩ | h; exacts [rfl, h.flags]
  | prn a => rcases execPrn_next h with ⟨_, _, rfl⟩ | h; exacts [rfl, h.flags]
  | add a b => rcases execAdd_next h with ⟨_, _, _, rfl⟩ | h; exacts [rfl, h.flags]
  | mul a b => rcases execMul_next h with ⟨_, _, _, rfl⟩ | h; exacts [rfl, h.flags]
  | cmp a b => exact absurd rfl (hi a b)
  | push a => rcases execPush_next h with ⟨_, _, rfl⟩ | h; exacts [rfl, h.flags]
  | pop a => rcases execPop_next h with ⟨_, _, rfl⟩ | h; exacts [rfl, h.flags]
  | call a => rcases execCall_next h with ⟨_, rfl⟩ | h; exacts [rfl, h.flags]
  | ret => rw [execRet_next h]; rfl
  | jmp a => rcases execJmp_next h with ⟨_, rfl⟩ | h; exacts [rfl, h.flags]
  | jeq a => rcases jumpIf_next h with ⟨_, _, rfl⟩ | ⟨_, _, rfl⟩ | h; exacts [rfl, rfl, h.flags]
  | jne a => rcases jumpIf_next h with ⟨_, _, rfl⟩ | ⟨_, _, rfl⟩ | h; exacts [rfl, rfl, h.flags]

/-- Only PUSH and CALL write memory. -/
theorem exec_mem (h : exec i s = .next t) (hpush : ∀ a, i ≠ .push a) (hcall : ∀ a, i ≠ .call a) : t.mem = s.mem := by
  cases i with
  | hlt => rcases execHlt_next h with ⟨_, rfl⟩ | h; exacts [rfl, h.mem]
  | ldi a v => rcases execLdi_next h with ⟨_, _, rfl⟩ | h; exacts [rfl, h.mem]
  | prn a => rcases execPrn_next h with ⟨_, _, rfl⟩ | h; exacts [rfl, h.mem]
  | add a b => rcases execAdd_next h with ⟨_, _, _, rfl⟩ | h; exacts [rfl, h.mem]
  | mul a b => rcases execMul_next h with ⟨_, _, _, rfl⟩ | h; exacts [rfl, h.mem]
  | cmp a b => rcases execCmp_next h with ⟨_, _, _, rfl⟩ | h; exacts [rfl, h.mem]
  | push a => exact absurd rfl (hpush a)
  | pop a => rcases execPop_next h with ⟨_, _, rfl⟩ | h; exacts [rfl, h.mem]
  | call a => exact absurd rfl (hcall a)
  | ret => rw [execRet_next h]; rfl
  | jmp a => rcases execJmp_next h with ⟨_, rfl⟩ | h; exacts [rfl, h.mem]
  | jeq a => rcases jumpIf_next h with ⟨_, _, rfl⟩ | ⟨_, _, rfl⟩ | h; exacts [rfl, rfl, h.mem]
  | jne a => rcases jumpIf_next h with ⟨_, _, rfl⟩ | ⟨_, _, rfl⟩ | h; exacts [rfl, rfl, h.mem]

/-- Only PRN appends to the output. -/
theorem exec_output (h : exec i s = .next t) (hi : ∀ a, i ≠ .prn a) : t.output = s.output := by
  cases i with
  | hlt => rcases execHlt_next h with ⟨_, rfl⟩ | h; exacts [rfl, h.output]
  | ldi a v => rcases execLdi_next h with ⟨_, _, rfl⟩ | h; exacts [rfl, h.output]
  | prn a => exact absurd rfl (hi a)
  | add a b => rcases execAdd_next h with ⟨_, _, _, rfl⟩ | h; exacts [rfl, h.output]
  | mul a b => rcases execMul_next h with ⟨_, _, _, rfl⟩ | h; exacts [rfl, h.output]
  | cmp a b => rcases execCmp_next h with ⟨_, _, _, rfl⟩ | h; exacts [rfl, h.output]
  | push a => rcases execPush_next h with ⟨_, _, rfl⟩ | h; exacts [rfl, h.output]
  | pop a => rcases execPop_next h with ⟨_, _, rfl⟩ | h; exacts [rfl, h.output]
  | call a => rcases execCall_next h with ⟨_, rfl⟩ | h; exacts [rfl, h.output]
  | ret => rw [execRet_next h]; rfl
  | jmp a => rcases execJmp_next h with ⟨_, rfl⟩ | h; exacts [rfl, h.output]
  | jeq a => rcases jumpIf_next h with ⟨_, _, rfl⟩ | ⟨_, _, rfl⟩ | h; exacts [rfl, rfl, h.output]
  | jne a => rcases jumpIf_next h with ⟨_, _, rfl⟩ | ⟨_, _, rfl⟩ | h; exacts [rfl, rfl, h.output]

/-- An instruction faults by an operand, or it keeps the fault record, and `status` too but for HLT. -/
theorem exec_status (h : exec i s = .next t) :
    OperandFault s t ∨ (t.faultRecord = s.faultRecord ∧
      (t.status = s.status ∨ i = .hlt ∧ t.status = .halted ∧ t.pc = s.pc + 1)) := by
  cases i with
  | hlt => rcases execHlt_next h with ⟨_, rfl⟩ | h; exacts [.inr ⟨rfl, .inr ⟨rfl, rfl, rfl⟩⟩, .inl h]
  | ldi a v => rcases execLdi_next h with ⟨_, _, rfl⟩ | h; exacts [.inr ⟨rfl, .inl rfl⟩, .inl h]
  | prn a => rcases execPrn_next h with ⟨_, _, rfl⟩ | h; exacts [.inr ⟨rfl, .inl rfl⟩, .inl h]
  | add a b => rcases execAdd_next h with ⟨_, _, _, rfl⟩ | h; exacts [.inr ⟨rfl, .inl rfl⟩, .inl h]
  | mul a b => rcases execMul_next h with ⟨_, _, _, rfl⟩ | h; exacts [.inr ⟨rfl, .inl rfl⟩, .inl h]
  | cmp a b => rcases execCmp_next h with ⟨_, _, _, rfl⟩ | h; exacts [.inr ⟨rfl, .inl rfl⟩, .inl h]
  | push a => rcases execPush_next h with ⟨_, _, rfl⟩ | h; exacts [.inr ⟨rfl, .inl rfl⟩, .inl h]
  | pop a => rcases execPop_next h with ⟨_, _, rfl⟩ | h; exacts [.inr ⟨rfl, .inl rfl⟩, .inl h]
  | call a => rcases execCall_next h with ⟨_, rfl⟩ | h; exacts [.inr ⟨rfl, .inl rfl⟩, .inl h]
  | ret => rw [execRet_next h]; exact .inr ⟨rfl, .inl rfl⟩
  | jmp a => rcases execJmp_next h with ⟨_, rfl⟩ | h; exacts [.inr ⟨rfl, .inl rfl⟩, .inl h]
  | jeq a =>
    rcases jumpIf_next h with ⟨_, _, rfl⟩ | ⟨_, _, rfl⟩ | h
    exacts [.inr ⟨rfl, .inl rfl⟩, .inr ⟨rfl, .inl rfl⟩, .inl h]
  | jne a =>
    rcases jumpIf_next h with ⟨_, _, rfl⟩ | ⟨_, _, rfl⟩ | h
    exacts [.inr ⟨rfl, .inl rfl⟩, .inr ⟨rfl, .inl rfl⟩, .inl h]

/-- Every instruction keeps memory canonical. -/
theorem exec_wf (h : exec i s = .next t) (hm : s.mem.wf = true) : t.mem.wf = true := by
  by_cases hw : ∃ a, i = .push a ∨ i = .call a
  · have slot : s.decSp.sp.toNat ≤ 255 := by have := s.decSp.sp.isLt; omega
    obtain ⟨a, rfl | rfl⟩ := hw
    · rcases execPush_next h with ⟨_, _, rfl⟩ | h
      · exact Memory.wf_write _ hm slot
      · rw [h.mem]; exact hm
    · rcases execCall_next h with ⟨_, rfl⟩ | h
      · exact Memory.wf_write _ hm slot
      · rw [h.mem]; exact hm
  · rw [exec_mem h (fun a ha => hw ⟨a, .inl ha⟩) (fun a ha => hw ⟨a, .inr ha⟩)]; exact hm

end Sys2Proof.Machine
end

