-- ==== Sys2Proof/Laws/PerInstr.lean ====
section
/-! SUPPORT. The statements made of every instruction as syntax, one lemma per constructor. -/

namespace Sys2Proof.Laws.WindowOfEncoding

/-- The bytes an instruction occupies are as many as its format says, and its encoding, followed by any bytes that
fill a fetch window, is a window of which the decoder keeps exactly those bytes (R37, R38, R45). -/
def Statement (i : Instr) : Prop :=
  (encode i).length = i.width ∧
  ∀ x y : Byte, ∃ op a b, (encode i ++ [x, y]).take 3 = [op, a, b] ∧ decodeWindow op a b = .ok i

theorem hlt : Statement .hlt := ⟨rfl, fun _ _ => ⟨_, _, _, rfl, rfl⟩⟩
theorem ldi (a imm : Byte) : Statement (.ldi a imm) := ⟨rfl, fun _ _ => ⟨_, _, _, rfl, rfl⟩⟩
theorem prn (a : Byte) : Statement (.prn a) := ⟨rfl, fun _ _ => ⟨_, _, _, rfl, rfl⟩⟩
theorem add (a b : Byte) : Statement (.add a b) := ⟨rfl, fun _ _ => ⟨_, _, _, rfl, rfl⟩⟩
theorem mul (a b : Byte) : Statement (.mul a b) := ⟨rfl, fun _ _ => ⟨_, _, _, rfl, rfl⟩⟩
theorem cmp (a b : Byte) : Statement (.cmp a b) := ⟨rfl, fun _ _ => ⟨_, _, _, rfl, rfl⟩⟩
theorem push (a : Byte) : Statement (.push a) := ⟨rfl, fun _ _ => ⟨_, _, _, rfl, rfl⟩⟩
theorem pop (a : Byte) : Statement (.pop a) := ⟨rfl, fun _ _ => ⟨_, _, _, rfl, rfl⟩⟩
theorem call (a : Byte) : Statement (.call a) := ⟨rfl, fun _ _ => ⟨_, _, _, rfl, rfl⟩⟩
theorem ret : Statement .ret := ⟨rfl, fun _ _ => ⟨_, _, _, rfl, rfl⟩⟩
theorem jmp (a : Byte) : Statement (.jmp a) := ⟨rfl, fun _ _ => ⟨_, _, _, rfl, rfl⟩⟩
theorem jeq (a : Byte) : Statement (.jeq a) := ⟨rfl, fun _ _ => ⟨_, _, _, rfl, rfl⟩⟩
theorem jne (a : Byte) : Statement (.jne a) := ⟨rfl, fun _ _ => ⟨_, _, _, rfl, rfl⟩⟩

end Sys2Proof.Laws.WindowOfEncoding
end

