-- ==== Sys2Proof/Tests/Slice0.lean ====
section
/-! SUPPORT. Tests: expected values are the spec's own (95_test_vectors.md, whose vector is named at each test) or hand
calculations from its rules; the smoke test of WellFormed; and a witness for the hypotheses of each statement. -/

namespace Sys2Proof.Tests

open Sys2Proof.Machine Sys2Proof.Claims

/-! ### Small states -/

/-- The state a completed step or instruction answers. -/
def stateOf : Result → State
  | .next s => s
  | .fault r => nomatch r
  | .refused _ => State.reset

/-- Running at `pc` with `code` there, the rest as after reset. -/
def at' (pc : Byte) (code : List Byte) : State :=
  { State.reset with pc := pc, status := .running, mem := Memory.place [] pc.toNat code }

/-- The same with one register set. -/
def with1 (s : State) (r : RegIdx) (v : Byte) : State := s.writeReg r v

/-- The same with two registers set. -/
def with2 (s : State) (r : RegIdx) (v : Byte) (q : RegIdx) (w : Byte) : State := (s.writeReg r v).writeReg q w

/-- The state after one step. -/
def after (s : State) : State := stateOf (step s)

/-- A fault record as the vectors write it, with the codes of R87. -/
def record (s : State) : BitVec 2 × BitVec 1 × Byte × Byte × BitVec 9 :=
  (s.faultRecord.cause.code, s.faultRecord.subkind.code, s.faultRecord.fpc, s.faultRecord.fop, s.faultRecord.info)

/-- EGL as the vectors write it. -/
def egl (s : State) : Bool × Bool × Bool := (s.flags.e, s.flags.g, s.flags.l)

/-! ### WellFormed refuses an ill-formed term for each check (R44) -/

theorem test_illFormed_fieldA :
    ([.ldi 8 0, .prn 8, .add 8 0, .mul 8 0, .cmp 8 0, .push 8, .pop 200, .call 8, .jmp 12, .jeq 8, .jne 255] :
      List Instr).all (fun i => !i.wellFormed) = true := by decide

theorem test_illFormed_fieldB :
    ([.add 0 8, .mul 7 9, .cmp 0 255] : List Instr).all (fun i => !i.wellFormed) = true := by decide

theorem test_wellFormed :
    ([.hlt, .ldi 7 255, .prn 7, .add 7 7, .mul 0 7, .cmp 7 0, .push 7, .pop 7, .call 7, .ret, .jmp 7, .jeq 7, .jne 7] :
      List Instr).all Instr.wellFormed = true := by decide

/-! ### Decoding: words written out from R38 and R41 -/

theorem test_decode_hlt : decode [0b00000001, 0b11111111, 0b11111111] = .ok .hlt := rfl
theorem test_decode_ldi : decode [0b10000010, 0b00000011, 0b11111111] = .ok (.ldi 3 255) := rfl
theorem test_decode_prn : decode [0b01000111, 0b00000111, 0b00000000] = .ok (.prn 7) := rfl
theorem test_decode_add : decode [0b10100000, 0b00000001, 0b00000010] = .ok (.add 1 2) := rfl
theorem test_decode_mul : decode [0b10100010, 0b00000001, 0b00000010] = .ok (.mul 1 2) := rfl
theorem test_decode_cmp : decode [0b10100111, 0b00000001, 0b00000010] = .ok (.cmp 1 2) := rfl
theorem test_decode_push : decode [0b01000101, 0b00000100, 0b00000000] = .ok (.push 4) := rfl
theorem test_decode_pop : decode [0b01000110, 0b00000101, 0b00000000] = .ok (.pop 5) := rfl
theorem test_decode_call : decode [0b01010000, 0b00000110, 0b00000000] = .ok (.call 6) := rfl
theorem test_decode_ret : decode [0b00010001, 0b00000000, 0b00000000] = .ok .ret := rfl
theorem test_decode_jmp : decode [0b01010100, 0b00000011, 0b00000000] = .ok (.jmp 3) := rfl
theorem test_decode_jeq : decode [0b01010101, 0b00000010, 0b00000000] = .ok (.jeq 2) := rfl
theorem test_decode_jne : decode [0b01010110, 0b00000010, 0b00000000] = .ok (.jne 2) := rfl

/-- DC1, DC2, DC3, DC4: bytes outside R41, two of them entries but for bits 7:6, one LS-8's SUB. -/
theorem test_decode_unlisted :
    ([0x00, 0x41, 0xC1, 0xA1, 0x02, 0x81, 0xFF] : List Byte).all
      (fun op => decodeWindow op 9 9 = .error (.unsupportedInstruction op)) = true := by decide

/-- DC count: 243 bytes are no opcode (R43). -/
theorem test_decode_count :
    ((List.range 256).filter fun op => (decodeWindow (BitVec.ofNat 8 op) 0 0).toOption = none).length = 243 := by
  decide +kernel

/-- A table word is read least significant byte first, and what lies above `nbits` is 0. -/
theorem test_decodeTableWord :
    decodeTableWord 24 0x080082 = some (.ldi 0 8) ∧ decodeTableWord 8 0xFF01 = some .hlt ∧
    decodeTableWord 16 0x0247 = some (.prn 2) ∧ decodeTableWord 8 0xA0 = some (.add 0 0) ∧
    decodeTableWord 8 0xA1 = none := by decide

/-! ### One step: the derived vectors of 95_test_vectors.md -/

/-- HL2. -/
theorem test_hlt : (after (at' 253 [0x01])).status = .halted ∧ (after (at' 253 [0x01])).pc = 254 := by decide

/-- HL3, HL4. -/
theorem test_hlt_at_top :
    record (after (at' 254 [0x01])) = (3, 0, 254, 0x01, 256) ∧ record (after (at' 255 [0x01])) = (3, 0, 255, 0x01, 256) := by
  decide

/-- LD1, LD5. -/
theorem test_ldi : (after (at' 0 [0x82, 3, 0xFF])).regs[3] = 255 ∧ (after (at' 0 [0x82, 3, 0xFF])).pc = 3 := by decide

/-- LD3, LD4. -/
theorem test_ldi_faults :
    record (after (at' 0 [0x82, 8, 5])) = (3, 1, 0, 0x82, 8) ∧ record (after (at' 253 [0x82, 0, 1])) = (3, 0, 253, 0x82, 256) ∧
    (after (at' 253 [0x82, 0, 1])).regs[0] = 0 := by decide

/-- PR2. -/
theorem test_prn : (after (at' 0 [0x47, 7])).output = [244] ∧ (after (at' 0 [0x47, 7])).pc = 2 := by decide

/-- PR3. -/
theorem test_prn_faults : record (after (at' 0 [0x47, 9])) = (3, 1, 0, 0x47, 9) ∧ (after (at' 0 [0x47, 9])).output = [] := by
  decide

/-- AD1, AD9. -/
theorem test_add :
    (after (with2 (at' 0 [0xA0, 0, 1]) 0 250 1 10)).regs[0] = 4 ∧ (after (with1 (at' 0 [0xA0, 7, 1]) 1 12)).regs[7] = 0 := by
  decide

/-- AD6, AD7: A is checked before B. -/
theorem test_add_faults :
    record (after (at' 0 [0xA0, 0, 9])) = (3, 1, 0, 0xA0, 9) ∧ record (after (at' 0 [0xA0, 9, 10])) = (3, 1, 0, 0xA0, 9) := by
  decide

/-- MU1, MU3, MU5. -/
theorem test_mul :
    (after (with2 (at' 0 [0xA2, 0, 1]) 0 200 1 2)).regs[0] = 144 ∧
    (after (with2 (at' 0 [0xA2, 0, 1]) 0 255 1 255)).regs[0] = 1 ∧ (after (with1 (at' 0 [0xA2, 0, 0]) 0 15)).regs[0] = 225 := by
  decide

/-- CP4, CP5, CP6: unsigned. -/
theorem test_cmp :
    egl (after (with2 (at' 0 [0xA7, 0, 1]) 0 0 1 255)) = (false, false, true) ∧
    egl (after (with2 (at' 0 [0xA7, 0, 1]) 0 128 1 127)) = (false, true, false) ∧
    egl (after (with1 (at' 0 [0xA7, 2, 2]) 2 9)) = (true, false, false) := by decide

/-- CP7, CP8: the two policies. -/
theorem test_cmp_policies :
    compareFlags .clear 3 7 ⟨true, false, false⟩ = ⟨false, false, true⟩ ∧
    compareFlags .sticky 3 7 ⟨true, false, false⟩ = ⟨true, false, true⟩ ∧
    compareFlags .clear 5 5 ⟨false, true, true⟩ = ⟨true, false, false⟩ ∧
    compareFlags .sticky 5 5 ⟨false, true, true⟩ = ⟨true, true, true⟩ := by decide

/-- PU2, PU3: PUSH R7 stores the decremented SP; SP wraps. -/
theorem test_push :
    (after (at' 0 [0x45, 7])).regs[7] = 0xF3 ∧ (after (at' 0 [0x45, 7])).mem.read 0xF3 = 0xF3 ∧
    (after (with2 (at' 0 [0x45, 0]) 0 9 7 0)).regs[7] = 0xFF ∧
    (after (with2 (at' 0 [0x45, 0]) 0 9 7 0)).mem.read 0xFF = 9 := by decide

/-- PU5: a PUSH over its own operand byte. -/
theorem test_push_own_byte :
    (after (with2 (at' 10 [0x45, 1]) 1 0x99 7 12)).mem.read 11 = 0x99 ∧
    (after (with2 (at' 10 [0x45, 1]) 1 0x99 7 12)).pc = 12 := by decide

/-- PO2, PO4: POP R7 increments what it loaded; popping the empty stack is no fault. -/
theorem test_pop :
    (after (with1 { at' 0 [0x46, 7] with mem := [(0, 0x46), (1, 7), (0xF3, 0x10)] } 7 0xF3)).regs[7] = 0x11 ∧
    (after (at' 0 [0x46, 0])).regs[0] = 0 ∧ (after (at' 0 [0x46, 0])).regs[7] = 0xF5 := by decide

/-- PO5. -/
theorem test_pop_faults : record (after (at' 0 [0x46, 0xC8])) = (3, 1, 0, 0x46, 200) := by decide

/-- CA1, CA2: CALL R7 jumps to the decremented SP. -/
theorem test_call :
    (after (with1 (at' 10 [0x50, 1]) 1 40)).pc = 40 ∧ (after (with1 (at' 10 [0x50, 1]) 1 40)).mem.read 0xF3 = 12 ∧
    (after (at' 10 [0x50, 7])).pc = 0xF3 ∧ (after (at' 10 [0x50, 7])).mem.read 0xF3 = 12 := by decide

/-- CA3, CA5. -/
theorem test_call_edges :
    (after (at' 253 [0x50, 0])).mem.read 0xF3 = 255 ∧ (after (at' 253 [0x50, 0])).pc = 0 ∧
    (after (with1 (at' 0 [0x50, 1]) 7 0)).regs[7] = 0xFF ∧ (after (with1 (at' 0 [0x50, 1]) 7 0)).mem.read 0xFF = 2 := by decide

/-- RT2, RT3. -/
theorem test_ret :
    (after (with1 { at' 0 [0x11] with mem := [(0, 0x11), (0xFF, 7)] } 7 0xFF)).pc = 7 ∧
    (after (with1 { at' 0 [0x11] with mem := [(0, 0x11), (0xFF, 7)] } 7 0xFF)).regs[7] = 0 ∧
    (after (at' 0 [0x11])).regs[7] = 0xF5 := by decide

/-- JM1, JM3. -/
theorem test_jmp : (after (with1 (at' 0 [0x54, 3]) 3 0x20)).pc = 0x20 ∧ (after (at' 0 [0x54, 7])).pc = 0xF4 := by decide

/-- JE1, JE4, JE5. -/
theorem test_jeq :
    (after (with1 { at' 0 [0x55, 2] with flags := ⟨true, false, false⟩ } 2 48)).pc = 48 ∧
    (after (at' 253 [0x55, 2])).pc = 255 ∧
    (after (with1 { at' 0 [0x55, 2] with flags := ⟨false, true, false⟩ } 2 48)).pc = 2 := by decide

/-- JE3: the field is checked though the jump is not taken. -/
theorem test_jeq_faults : record (after (at' 0 [0x55, 8])) = (3, 1, 0, 0x55, 8) := by decide

/-- JN2, JN3. -/
theorem test_jne :
    (after (with1 { at' 0 [0x56, 2] with flags := ⟨true, false, false⟩ } 2 48)).pc = 2 ∧
    (after (with1 { at' 0 [0x56, 2] with flags := ⟨false, false, true⟩ } 2 48)).pc = 48 := by decide

/-- JN4. -/
theorem test_jne_faults :
    record (after { at' 0 [0x56, 8] with flags := ⟨true, false, false⟩ }) = (3, 1, 0, 0x56, 8) := by decide

/-- DC4, DC5: an illegal opcode before its fields, the fetch address before the opcode. -/
theorem test_fault_order :
    record (after (at' 0 [0xA1, 9, 9])) = (1, 0, 0, 0xA1, 0xA1) ∧ record (after (at' 255 [0xFF])) = (3, 0, 255, 0xFF, 256) := by
  decide

/-- The interface's word is what the next step from reset runs (W9's first instruction). -/
theorem test_withFetchWord :
    (after (State.reset.withFetchWord 24 0x080082)).regs[0] = 8 ∧ (after (State.reset.withFetchWord 8 0x01)).status = .halted := by
  decide

/-- Program 9: `run` resumes after HLT and has no effect in Faulted. -/
theorem test_run :
    (hostRun (after (at' 3 [0x01]))).status = .running ∧ (hostRun (after (at' 3 [0x01]))).pc = 4 ∧
    (hostRun (after (at' 7 [0x00]))).status = .faulted := by decide

/-- W9's image, with a blank line, a comment and white space. -/
theorem test_parseImage :
    parseImage [['1','0','0','0','0','0','1','0',' ','#',' ','L'], [' ','0','0','0','0','0','0','0','0'], [],
      ['0','0','0','0','1','0','0','0'], ['#','1'], ['0','1','0','0','0','1','1','1'], ['0','0','0','0','0','0','0','0'],
      ['0','0','0','0','0','0','0','1']] = some [0x82, 0, 8, 0x47, 0, 1] ∧
    parseImage [['1','0','0','0','0','0','1']] = none ∧ parseImage [['1','0','0','0','0','0','1','2']] = none := by decide

/-- R54: PUSH's transactions in order. -/
theorem test_transactions :
    stepTransactions (with1 (at' 0 [0x45, 0]) 0 42) = [.memRead 0, .memRead 1, .memRead 2, .memWrite 0xF3 42] ∧
    stepTransactions (at' 254 [0x01]) = [.memRead 254, .memRead 255] := by decide

/-! ### Witnesses: concrete states and operands that meet the hypotheses of each statement -/

/-- For `FaultsAtTop op`, in every statement that has it: each of the 13 opcodes at 254 and at 255. -/
theorem witness_FaultsAtTop :
    ([0x01, 0x82, 0x47, 0xA0, 0xA2, 0xA7, 0x45, 0x46, 0x50, 0x11, 0x54, 0x55, 0x56] : List Byte).all (fun op =>
      ([254, 255] : List Byte).all fun pc =>
        decide ((at' pc [op]).status = .running ∧ 254 ≤ (at' pc [op]).pc.toNat ∧
          (at' pc [op]).mem.read (at' pc [op]).pc.toNat = op)) = true := by decide

theorem witness_DecodeEncodeRoundTrip :
    Instr.wellFormed (.cmp 7 7) = true ∧ 3 ≤ (encode (.cmp 7 7) ++ []).length ∧
    Instr.wellFormed .hlt = true ∧ 3 ≤ (encode .hlt ++ [0xFF, 0]).length := by decide

theorem witness_EncodeOfDecodedWindow : decodeWindow 0x45 8 255 = .ok (.push 8) := rfl

theorem witness_DecoderComparesWholeOpcode :
    decodeWindow 0 0 0 = .error (.unsupportedInstruction 0) ∧
    (0xC1 : Byte) ≠ Instr.opcode .hlt ∧ (0xC1 : Byte) &&& 0x3F = Instr.opcode .hlt &&& 0x3F := by decide

theorem witness_Fetches_top : Fetches (at' 253 [0x01, 2, 3]) 0x01 2 3 := by decide

theorem witness_StepRunsDecodedInstruction :
    Fetches (at' 253 [0x54, 7, 9]) 0x54 7 9 ∧ decodeWindow 0x54 7 9 = .ok (.jmp 7) := by decide

theorem witness_PlacedWordIsFetched :
    State.reset.mem.wf = true ∧ State.reset.pc.toNat ≤ 253 ∧ (at' 253 []).pc.toNat ≤ 253 ∧
    decodeTableWord 8 0x11 = some .ret := by decide

theorem witness_HltHalts : (at' 254 []).pc.toNat ≤ 254 := by decide

/-- The one-field instructions' clauses: a legal field at 7, an illegal one at 8, the pc at its highest. -/
theorem witness_fieldA :
    (7 : Byte).toNat < 8 ∧ 7 < (8 : Byte).toNat ∧ 7 < (255 : Byte).toNat ∧ (at' 252 []).pc.toNat ≤ 252 ∧
    (at' 253 []).pc.toNat ≤ 253 ∧ (at' 253 []).pc = 253 := by decide

theorem witness_LdiLoadsImmediate : exec (.ldi 7 255) (at' 252 []) = .next { at' 252 [] with
    regs := #v[0, 0, 0, 0, 0, 0, 0, 255], pc := 255 } := rfl

theorem witness_PrnEmitsRegister : (stateOf (exec (.prn 7) (at' 253 []))).output = [0xF4] := by decide

theorem witness_AddWrapsModulo256 : (stateOf (exec (.add 7 7) (at' 252 []))).regs[7] = 0xE8 := by decide

theorem witness_MulKeepsLowByte : (stateOf (exec (.mul 7 7) (at' 252 []))).regs[7] = 0x90 := by decide

theorem witness_CmpSetsFlags : egl (stateOf (exec (.cmp 7 0) (at' 252 []))) = (false, true, false) := by decide

theorem witness_AluTagWithoutCaseFaults :
    record (stateOf (execAlu 3 7 0 (at' 252 []))) = (2, 0, 252, 0, 3) ∧
    (stateOf (execAlu 3 7 0 (at' 252 []))).faultRecord.cause = .unsupportedAluOperation ∧
    (stateOf (exec .ret (stateOf (execAlu 3 7 0 (at' 252 []))))).faultRecord.cause = .unsupportedAluOperation := by decide

theorem witness_PushDecrementsThenStores : (with1 State.reset 7 0).regs[7] = 0 := by decide

theorem witness_PopLoadsThenIncrements : (with1 State.reset 7 255).regs[7] = 255 := by decide

/-- PUSH, CALL and their round trips: canonical memory, the fields and pcs at their bounds. -/
theorem witness_stack :
    (at' 253 [0x45, 7]).mem.wf = true ∧ (at' 253 [0x45, 7]).pc.toNat ≤ 253 ∧ (at' 251 []).pc.toNat ≤ 251 ∧
    (6 : Byte).toNat < 7 ∧ (stateOf (exec (.push 7) (at' 253 []))).pc = 255 ∧
    (stateOf (exec (.call 7) (at' 253 []))).mem.read 0xF3 = 255 := by decide

theorem witness_PopLoadsRegister : (stateOf (exec (.pop 7) (at' 253 []))).regs[7] = 1 := by decide

theorem witness_PushThenPopCopies :
    (stateOf (exec (.pop 6) (stateOf (exec (.push 7) (at' 251 []))))).regs[6] = 0xF3 := by decide

theorem witness_CallThenRetReturns : (stateOf (exec .ret (stateOf (exec (.call 7) (at' 253 []))))).pc = 255 := by decide

theorem witness_JmpJumps : (stateOf (exec (.jmp 7) (at' 255 []))).pc = 0xF4 := by decide

theorem witness_JeqJumpsWhenEqual : (stateOf (exec (.jeq 7) (at' 253 []))).pc = 255 := by decide

theorem witness_JneJumpsWhenNotEqual : (stateOf (exec (.jne 7) (at' 253 []))).pc = 0xF4 := by decide

theorem witness_PcUpdateTable :
    Instr.wellFormed (.call 7) = true ∧ (at' 253 []).pc.toNat ≤ 253 ∧ (at' 253 []).status = .running ∧
    exec (.call 7) (at' 253 []) = .next (stateOf (exec (.call 7) (at' 253 []))) ∧
    (stateOf (exec (.call 7) (at' 253 []))).status ≠ .faulted ∧ fallsThrough true (.jne 0) = true := ⟨rfl, by decide, rfl, rfl, by decide, rfl⟩

theorem witness_OperandFetchPastMemoryFaults :
    (at' 255 []).status = .running ∧ 255 < (at' 255 []).pc.toNat + 1 ∧
    (at' 254 []).pc.toNat + 1 ≤ 255 ∧ 255 < (at' 254 []).pc.toNat + 2 := by decide

theorem witness_UnlistedOpcodeFaults :
    Fetches (at' 253 [0xC1]) 0xC1 0 0 ∧
    (0xC1 : Byte) ∉ ([0x01, 0x82, 0x47, 0xA0, 0xA2, 0xA7, 0x45, 0x46, 0x50, 0x11, 0x54, 0x55, 0x56] : List Byte) := by decide

theorem witness_RegisterFieldsAreChecked :
    fieldA (.jeq 8) = some 8 ∧ 7 < (8 : Byte).toNat ∧ fieldA (.cmp 7 8) = some 7 ∧ fieldB (.cmp 7 8) = some 8 ∧
    (∀ f, fieldA (.prn 7) = some f ∨ fieldB (.prn 7) = some f → f.toNat ≤ 7) ∧
    exec (.prn 7) (stateOf (exec (.prn 8) (at' 0 []))) = .next (stateOf (exec (.prn 7) (stateOf (exec (.prn 8) (at' 0 []))))) ∧
    (stateOf (exec (.prn 7) (stateOf (exec (.prn 8) (at' 0 []))))).faultRecord.subkind = .register :=
  ⟨rfl, by decide, rfl, rfl, by intro f h; simp only [fieldA, fieldB, Option.some.injEq, reduceCtorEq, or_false] at h; subst h; decide,
    rfl, rfl⟩

theorem witness_SequentialPcIsChecked :
    Instr.wellFormed (.add 7 7) = true ∧ fallsThrough false (.add 7 7) = true ∧
    255 < (at' 253 []).pc.toNat + Instr.width (.add 7 7) ∧ (at' 252 []).pc.toNat + Instr.width (.add 7 7) ≤ 255 ∧
    exec (.add 7 7) (at' 252 []) = .next (stateOf (exec (.add 7 7) (at' 252 []))) ∧ (at' 253 []).pc.toNat ≤ 253 :=
  ⟨rfl, rfl, by decide, by decide, rfl, by decide⟩

/-- A step of a Running machine: one that completes and one that faults. -/
theorem witness_running_steps :
    (at' 0 [0x01]).status = .running ∧ step (at' 0 [0x01]) = .next (after (at' 0 [0x01])) ∧
    (after (at' 0 [0x01])).status = .halted ∧ (after (at' 0 [0x01])).status ≠ .running ∧
    (at' 0 [0x00]).status = .running ∧ step (at' 0 [0x00]) = .next (after (at' 0 [0x00])) ∧
    (after (at' 0 [0x00])).status = .faulted := ⟨rfl, rfl, rfl, by decide, rfl, rfl, rfl⟩

theorem witness_FaultEntryRecordsAndStops : (511 : Nat) < 512 := by decide

theorem witness_FaultedIsAbsorbing :
    (after (at' 0 [0x00])).status = .faulted ∧ step (after (at' 0 [0x00])) = .next (after (at' 0 [0x00])) ∧
    (HostEvent.load [1]) ≠ .reset := ⟨rfl, rfl, by decide⟩

theorem witness_NoStepOutsideRunning : State.reset.status ≠ .running := by decide

theorem witness_RunCommand :
    State.reset.status = .ready ∧ (after (at' 0 [0x01])).status = .halted ∧ (at' 0 []).status = .running ∧
    (after (at' 0 [0x00])).status = .faulted := by decide

theorem witness_LoaderContract :
    State.reset.mem.wf = true ∧ State.reset.status ≠ .running ∧ (List.replicate 256 (7 : Byte)).length ≤ 256 ∧
    255 < (List.replicate 256 (7 : Byte)).length ∧ ([] : List Byte).length ≤ (255 : Byte).toNat ∧
    256 < (List.replicate 257 (7 : Byte)).length ∧ (at' 0 []).status = .running := by
  simp only [List.length_replicate, List.length_nil]; decide

theorem witness_ImageTokenIsMsbFirst :
    ['1'].length ≠ 8 ∧ '2' ∈ ['0', '2'] ∧ '2' ≠ '0' ∧ '2' ≠ '1' := by decide

theorem witness_HostPortReads : State.reset.status ≠ .running ∧ (at' 0 []).status = .running := by decide

theorem witness_FrameOfRegisterWriters :
    exec (.ldi 3 1) (at' 252 []) = .next (stateOf (exec (.ldi 3 1) (at' 252 []))) ∧
    exec (.add 7 0) (at' 0 []) = .next (stateOf (exec (.add 7 0) (at' 0 []))) ∧
    exec (.mul 8 0) (at' 0 []) = .next (stateOf (exec (.mul 8 0) (at' 0 []))) := ⟨rfl, rfl, rfl⟩

theorem witness_FrameOfRegisterReaders :
    ([.hlt, .prn 7, .cmp 0 7, .jmp 7, .jeq 7, .jne 8] : List Instr).all
      (fun i => (match exec i (at' 0 []) with | .next _ => true | .fault _ => false | .refused _ => false)) = true := by decide

theorem witness_FrameOfPushAndCall :
    (at' 0 [1]).mem.wf = true ∧ (at' 0 [1]).decSp.sp = 0xF3 ∧ (0xF4 : Byte) ≠ 0xF3 ∧
    exec (.push 7) (at' 0 [1]) = .next (stateOf (exec (.push 7) (at' 0 [1]))) ∧
    exec (.call 7) (at' 0 [1]) = .next (stateOf (exec (.call 7) (at' 0 [1]))) :=
  ⟨by decide, by decide, by decide, rfl, rfl⟩

theorem witness_FrameOfPopAndRet :
    exec (.pop 3) (at' 0 []) = .next (stateOf (exec (.pop 3) (at' 0 []))) ∧
    exec .ret (at' 0 []) = .next (stateOf (exec .ret (at' 0 []))) := ⟨rfl, rfl⟩

theorem witness_FlagsWrittenByCmpReadByJumps :
    (at' 0 [0x01]).mem.read 0 ≠ 0xA7 ∧ (at' 0 [0x01]).mem.read 0 ≠ 0x55 ∧ (at' 0 [0x01]).mem.read 0 ≠ 0x56 ∧
    SameButFlags (at' 0 [0x01]) { at' 0 [0x01] with flags := ⟨true, true, true⟩ } ∧
    SameButGL (at' 0 [0x55]) { at' 0 [0x55] with flags := ⟨false, true, true⟩ } ∧
    step (at' 0 [0x55]) = .next (after (at' 0 [0x55])) ∧
    step { at' 0 [0x55] with flags := ⟨false, true, true⟩ } =
      .next (after { at' 0 [0x55] with flags := ⟨false, true, true⟩ }) :=
  ⟨by decide, by decide, by decide, rfl, rfl, rfl, rfl⟩

theorem witness_OnlyPushAndCallWriteMemory :
    step (at' 0 [0x01]) = .next (after (at' 0 [0x01])) ∧ (at' 0 [0x01]).mem.read 0 ≠ 0x45 ∧
    (at' 0 [0x01]).mem.read 0 ≠ 0x50 ∧ (at' 0 [0x45, 7]).mem.wf = true ∧
    step (at' 0 [0x45, 7]) = .next (after (at' 0 [0x45, 7])) ∧ (0xF4 : Byte) ≠ (at' 0 [0x45, 7]).regs[7] - 1 :=
  ⟨rfl, by decide, by decide, by decide, rfl, by decide⟩

theorem witness_OneEmitPerPrn :
    (at' 253 [0x47, 7]).status = .running ∧ step (at' 253 [0x47, 7]) = .next (after (at' 253 [0x47, 7])) ∧
    (at' 253 [0x47, 7]).mem.read 253 = 0x47 ∧ (after (at' 253 [0x47, 7])).status ≠ .faulted ∧
    (after (at' 0 [0x47, 8])).status = .faulted := ⟨rfl, rfl, rfl, by decide, rfl⟩

theorem witness_PushOverOwnOperandCompletes :
    (with2 (at' 10 [0x45, 1]) 1 0x99 7 12).mem.wf = true ∧ Fetches (with2 (at' 10 [0x45, 1]) 1 0x99 7 12) 0x45 1 0 ∧
    (with2 (at' 10 [0x45, 1]) 1 0x99 7 12).regs[7] = (with2 (at' 10 [0x45, 1]) 1 0x99 7 12).pc + 2 := by decide

/-- A state that meets the invariant, Running with memory written and a flag set, and a step from it. -/
theorem witness_StepKeepsInvariant :
    State.Inv { at' 0 [0x45, 7] with flags := ⟨true, false, false⟩ } ∧
    step (at' 0 [0x45, 7]) = .next (after (at' 0 [0x45, 7])) ∧ (at' 0 [0x45, 7]).Inv := ⟨by decide, rfl, by decide⟩

theorem witness_HostEventsKeepInvariant : State.Inv (at' 0 [0x45, 7]) := by decide

/-- A reached state that is Faulted: reset, run, and a step into the zero at address 0. -/
theorem witness_ReachableStatesMeetInvariant :
    Reachable (after (hostRun State.reset)) ∧ (after (hostRun State.reset)).status = .faulted :=
  ⟨.step (.host .run .reset) rfl, rfl⟩

end Sys2Proof.Tests
end

section
/-! SUPPORT. The flags as information: who writes them, and that only JEQ and JNE let one reach the rest of the state
(10_state.md R20). Every lemma compares a run from `s` with the same run from `s.setFlags new`. -/

namespace Sys2Proof.Machine

open Sys2Proof.Claims

variable {s t t' : State} {old new : Flags}

/-! ### Answers that do not depend on the flags -/

/-- How the answer from a state whose flags are `old` and the answer from the same state with the flags `new` compare
when nothing but the flags can tell them apart. -/
inductive FlagsIndependent (old new : Flags) : Result → Result → Prop
  /-- Both runs kept their flags. -/
  | kept {t : State} (h : t.flags = old) : FlagsIndependent old new (.next t) (.next (t.setFlags new))
  /-- Both runs wrote the same flags, from operands alone. -/
  | written {t : State} : FlagsIndependent old new (.next t) (.next t)

namespace FlagsIndependent

theorem releaseLatches {o o' : Result} (h : FlagsIndependent old new o o') :
    FlagsIndependent old new (andThen o State.releaseLatches) (andThen o' State.releaseLatches) := by
  cases h with
  | kept h => exact .kept h
  | written => exact .written

theorem sameButFlags (h : FlagsIndependent old new (.next t) (.next t')) : SameButFlags t t' := by
  cases h <;> rfl

theorem sameButGL (hE : new.e = old.e) (h : FlagsIndependent old new (.next t) (.next t')) : SameButGL t t' := by
  cases h with
  | kept h =>
    subst h
    rw [SameButGL, ← hE]
    rfl
  | written => rfl

end FlagsIndependent

/-! ### The operand checks and the instructions -/

theorem withReg_setFlags {a : RegField} {k k' : RegIdx → Result}
    (hk : ∀ r, FlagsIndependent s.flags new (k r) (k' r)) :
    FlagsIndependent s.flags new (withReg a s k) (withReg a (s.setFlags new) k') := by
  unfold withReg
  cases regIndex? a with
  | some r => exact hk r
  | none => exact .kept rfl

theorem withNextPc_setFlags {w : Nat} {k k' : Byte → Result}
    (hk : ∀ p, FlagsIndependent s.flags new (k p) (k' p)) :
    FlagsIndependent s.flags new (withNextPc w s k) (withNextPc w (s.setFlags new) k') := by
  by_cases hp : s.pc.toNat + w ≤ 255
  · rw [withNextPc_fits hp, withNextPc_fits (s := s.setFlags new) hp]
    exact hk _
  · rw [withNextPc_over (Nat.lt_of_not_le hp), withNextPc_over (s := s.setFlags new) (Nat.lt_of_not_le hp)]
    exact .kept rfl

theorem jumpIf_setFlags (taken : Bool) (a : RegField) :
    FlagsIndependent s.flags new (jumpIf taken a s) (jumpIf taken a (s.setFlags new)) := by
  cases taken with
  | true => exact withReg_setFlags fun _ => .kept rfl
  | false =>
    refine withReg_setFlags fun _ => ?_
    rw [if_neg Bool.false_ne_true, if_neg Bool.false_ne_true]
    exact withNextPc_setFlags fun _ => .kept rfl

/-- CMP writes flags that its operands determine; JEQ and JNE read E; no other meaning mentions the flags. -/
theorem exec_setFlags (i : Instr) (hE : i.opcode = 0x55 ∨ i.opcode = 0x56 → new.e = s.flags.e) :
    FlagsIndependent s.flags new (exec i s) (exec i (s.setFlags new)) := by
  cases i with
  | hlt =>
    change FlagsIndependent s.flags new (execHlt s) (execHlt (s.setFlags new))
    exact withNextPc_setFlags fun _ => .kept rfl
  | ldi a v => exact withReg_setFlags fun _ => withNextPc_setFlags fun _ => .kept rfl
  | prn a => exact withReg_setFlags fun _ => withNextPc_setFlags fun _ => .kept rfl
  | add a b => exact withReg_setFlags fun _ => withReg_setFlags fun _ => withNextPc_setFlags fun _ => .kept rfl
  | mul a b => exact withReg_setFlags fun _ => withReg_setFlags fun _ => withNextPc_setFlags fun _ => .kept rfl
  | cmp a b => exact withReg_setFlags fun _ => withReg_setFlags fun _ => withNextPc_setFlags fun _ => .written
  | push a => exact withReg_setFlags fun _ => withNextPc_setFlags fun _ => .kept rfl
  | pop a => exact withReg_setFlags fun _ => withNextPc_setFlags fun _ => .kept rfl
  | call a => exact withReg_setFlags fun _ => .kept rfl
  | ret => exact .kept rfl
  | jmp a => exact jumpIf_setFlags true a
  | jeq a =>
    change FlagsIndependent _ _ (jumpIf s.flags.e a s) (jumpIf new.e a (s.setFlags new))
    rw [hE (.inl rfl)]
    exact jumpIf_setFlags s.flags.e a
  | jne a =>
    change FlagsIndependent _ _ (jumpIf (!s.flags.e) a s) (jumpIf (!new.e) a (s.setFlags new))
    rw [hE (.inr rfl)]
    exact jumpIf_setFlags (!s.flags.e) a

/-! ### The step -/

/-- A window past the top of memory faults alike however much of it was latched: of the latches only the opcode byte
reaches the record, and the rest is released (R57, R91). -/
theorem step_outside_eq (hr : s.status = .running) (hp : 254 ≤ s.pc.toNat) :
    step s = .next (s.fetched.faulted .outOfRange .address 256).releaseLatches := by
  obtain ⟨latch, hop, h⟩ := step_outside hr hp
  rw [h, State.faulted, hop]
  rfl

theorem step_setFlags (s : State) (new : Flags)
    (hE : s.memRead s.pc = 0x55 ∨ s.memRead s.pc = 0x56 → new.e = s.flags.e) :
    FlagsIndependent s.flags new (step s) (step (s.setFlags new)) := by
  by_cases hr : s.status = .running
  · by_cases hp : s.pc.toNat ≤ 253
    · cases hd : decodeWindow (s.memRead s.pc) (s.memRead (s.pc + 1)) (s.memRead (s.pc + 2)) with
      | ok i =>
        rw [step_decoded hr hp hd, step_decoded (s := s.setFlags new) hr hp hd]
        obtain ⟨hop, -⟩ := decodeWindow_ok hd
        exact (exec_setFlags (s := s.fetched) i (hop ▸ hE)).releaseLatches
      | error e =>
        rw [step_unlisted hr hp hd, step_unlisted (s := s.setFlags new) hr hp hd]
        exact .kept rfl
    · have htop : 254 ≤ s.pc.toNat := Nat.lt_of_not_le hp
      rw [step_outside_eq hr htop, step_outside_eq (s := s.setFlags new) hr htop]
      exact .kept rfl
  · rw [step_idle hr, step_idle (s := s.setFlags new) hr]
    exact .kept rfl

/-- A step whose opcode byte is not CMP's keeps the flags. -/
theorem step_flags (h : step s = .next t) (hop : s.memRead s.pc ≠ 0xA7) : t.flags = s.flags := by
  rcases step_cases h with ⟨_, rfl⟩ | ⟨_, _, _, _, rfl⟩ | ⟨_, _, _, rfl⟩ | ⟨_, _, i, u, hd, hu, rfl⟩
  · rfl
  · rfl
  · rfl
  · obtain ⟨hi, -⟩ := decodeWindow_ok hd
    have hne : ∀ a b, i ≠ .cmp a b := by
      rintro a b rfl
      exact hop hi.symm
    calc u.releaseLatches.flags = u.flags := rfl
      _ = s.fetched.flags := exec_flags hu hne

/-! ### The two agreements of the statement, as an update of the flags -/

theorem e_eq_of_sameButGL {s s' : State} (h : SameButGL s s') : s'.flags.e = s.flags.e := by rw [h]

theorem sameButFlags_of_sameButGL {s s' : State} (h : SameButGL s s') : SameButFlags s s' := by
  rw [SameButFlags, h]

theorem step_of_sameButFlags {s s' : State} (h : SameButFlags s s')
    (hE : s.memRead s.pc = 0x55 ∨ s.memRead s.pc = 0x56 → s'.flags.e = s.flags.e)
    (ht : step s = .next t) (ht' : step s' = .next t') :
    FlagsIndependent s.flags s'.flags (.next t) (.next t') := by
  have hs' : s' = s.setFlags s'.flags := h
  rw [← ht, ← ht', hs']
  exact step_setFlags s s'.flags hE

/-- Settles O45: a step commutes with a change of the flags, unless it is a JEQ or a JNE and E changed. -/
theorem flagsWrittenByCmpReadByJumps : Obligations.FlagsWrittenByCmpReadByJumps := by
  refine ⟨?only_cmp_writes, ?only_jumps_read, ?only_e_is_read, rfl⟩
  case only_cmp_writes =>
    intro s t _ h hop
    exact step_flags h hop
  case only_jumps_read =>
    intro s s' t t' hs hjeq hjne ht ht'
    have hE : s.memRead s.pc = 0x55 ∨ s.memRead s.pc = 0x56 → s'.flags.e = s.flags.e :=
      fun hop => (hop.elim hjeq hjne).elim
    exact (step_of_sameButFlags hs hE ht ht').sameButFlags
  case only_e_is_read =>
    intro s s' t t' hs ht ht'
    have hE := e_eq_of_sameButGL hs
    exact (step_of_sameButFlags (sameButFlags_of_sameButGL hs) (fun _ => hE) ht ht').sameButGL hE

end Sys2Proof.Machine
end

section
/-! SUPPORT. Which opcode bytes the decoder accepts and which it rejects, and that no two of the 13 agree in bits 5:0
(30_encoding.md R41, R42, R43). -/

namespace Sys2Proof

/-- The opcode column of the map, in the order of R41. -/
theorem opcodeMap_opcodes : opcodeMap.map Prod.fst =
    [0x01, 0x82, 0x47, 0xA0, 0xA2, 0xA7, 0x45, 0x46, 0x50, 0x11, 0x54, 0x55, 0x56] := rfl

theorem Instr.opcode_mem_opcodeMap (i : Instr) : i.opcode ∈ opcodeMap.map Prod.fst := by
  cases i <;> simp [opcodeMap_opcodes, Instr.opcode]

/-- Bits 5:0 already tell the 13 opcodes apart. -/
theorem opcodeMap_low6_injective : ∀ p ∈ opcodeMap.map Prod.fst, ∀ q ∈ opcodeMap.map Prod.fst,
    p &&& 0x3F = q &&& 0x3F → p = q := by decide

theorem decodeWindow_isOk_iff (op a b : Byte) :
    (∃ i, decodeWindow op a b = .ok i) ↔ op ∈ opcodeMap.map Prod.fst := by
  constructor
  · rintro ⟨i, h⟩
    obtain ⟨rfl, -⟩ := decodeWindow_ok h
    exact i.opcode_mem_opcodeMap
  · intro hm
    rcases decodeWindow_cases op a b with ⟨select, -, h⟩ | ⟨hn, -⟩
    · exact ⟨_, h⟩
    · exact absurd hm hn

/-- An opcode byte outside the map is rejected by name (R43, R58). -/
theorem decodeWindow_unlisted {op : Byte} (hn : op ∉ opcodeMap.map Prod.fst) (a b : Byte) :
    decodeWindow op a b = .error (.unsupportedInstruction op) := by
  cases h : decodeWindow op a b with
  | ok i => exact absurd ((decodeWindow_isOk_iff op a b).1 ⟨i, h⟩) hn
  | error e =>
    obtain ⟨-, rfl⟩ := decodeWindow_error h
    rfl

/-- Settles O3: the decoder accepts exactly the map's opcodes, and bits 5:0 of one determine its bits 7:6. -/
theorem decoderComparesWholeOpcode : Obligations.DecoderComparesWholeOpcode := by
  refine ⟨?accepted, ?rejected, ?high_bits_differ⟩
  case accepted =>
    intro op a b
    rw [← opcodeMap_opcodes]
    exact decodeWindow_isOk_iff op a b
  case rejected =>
    intro op a b hno
    have hn : op ∉ opcodeMap.map Prod.fst := fun hm =>
      have ⟨i, hi⟩ := (decodeWindow_isOk_iff op a b).2 hm
      hno i hi
    exact decodeWindow_unlisted hn a b
  case high_bits_differ =>
    intro i op a b hne hlow
    have hn : op ∉ opcodeMap.map Prod.fst := fun hm =>
      hne (opcodeMap_low6_injective op hm i.opcode i.opcode_mem_opcodeMap hlow)
    exact decodeWindow_unlisted hn a b

end Sys2Proof
end

section
/-! SUPPORT. The checks an instruction makes on its operands, as one function of the instruction and the state
(40_dispatch.md R59, R60, R63), and what an instruction that passes them leaves in the pc, `status` and the record. -/

namespace Sys2Proof.Machine

open Sys2Proof.Claims

variable {i : Instr} {s t : State}

/-! ### Formats (R37, R38) -/

theorem format_width_bounds (f : Format) : 1 ≤ f.width ∧ f.width ≤ 3 := by cases f <;> decide

theorem width_bounds (i : Instr) : 1 ≤ i.width ∧ i.width ≤ 3 := format_width_bounds i.format

/-- Well-formed is: every used register field is legal (R44). -/
theorem wellFormed_iff (i : Instr) :
    i.wellFormed = true ↔ ∀ f, fieldA i = some f ∨ fieldB i = some f → f.toNat ≤ 7 := by
  cases i <;> simp [Instr.wellFormed, RegField.legal, fieldA, fieldB, Nat.lt_succ_iff, or_imp, forall_and]

/-! ### The first check that fails -/

/-- What the check of a register field raises, for a format that has the field (R59). -/
def fieldFault (f : Option Byte) : Option (FaultSubkind × Nat) :=
  match f with
  | some f => if 7 < f.toNat then some (.register, f.toNat) else none
  | none => none

/-- What the check of the sequential pc raises, for an instruction that falls through (R60). -/
def pcFault (falls : Bool) (w : Nat) (s : State) : Option (FaultSubkind × Nat) :=
  if falls then (if 255 < s.pc.toNat + w then some (.address, s.pc.toNat + w) else none) else none

/-- The first operand check that fails, in the order of R63: field A, field B, the sequential pc. -/
def operandFault (i : Instr) (s : State) : Option (FaultSubkind × Nat) :=
  (fieldFault (fieldA i)).or ((fieldFault (fieldB i)).or (pcFault (fallsThrough s.flags.e i) i.width s))

theorem fieldFault_illegal {f : Byte} (h : 7 < f.toNat) : fieldFault (some f) = some (.register, f.toNat) := if_pos h

theorem fieldFault_legal {f : Option Byte} (h : ∀ v, f = some v → v.toNat ≤ 7) : fieldFault f = none := by
  cases f with
  | none => rfl
  | some v => exact if_neg (Nat.not_lt.2 (h v rfl))

theorem pcFault_over {w : Nat} (h : 255 < s.pc.toNat + w) : pcFault true w s = some (.address, s.pc.toNat + w) :=
  if_pos h

theorem pcFault_fits {falls : Bool} {w : Nat} (h : falls = true → s.pc.toNat + w ≤ 255) : pcFault falls w s = none := by
  cases falls with
  | true => exact if_neg (Nat.not_lt.2 (h rfl))
  | false => rfl

theorem pcFault_address {falls : Bool} {w n : Nat} {k : FaultSubkind} (h : pcFault falls w s = some (k, n)) :
    k = .address := by
  unfold pcFault at h
  split_ifs at h
  cases h; rfl

theorem operandFault_fieldA {a : Byte} (ha : fieldA i = some a) (h : 7 < a.toNat) :
    operandFault i s = some (.register, a.toNat) := by
  rw [operandFault, ha, fieldFault_illegal h, Option.some_or]

theorem operandFault_fieldB {a b : Byte} (ha : fieldA i = some a) (hb : fieldB i = some b) (hal : a.toNat ≤ 7)
    (h : 7 < b.toNat) : operandFault i s = some (.register, b.toNat) := by
  have hA : fieldFault (fieldA i) = none := fieldFault_legal (by simpa [ha] using hal)
  rw [operandFault, hA, hb, fieldFault_illegal h, Option.none_or, Option.some_or]

theorem operandFault_legal (h : ∀ f, fieldA i = some f ∨ fieldB i = some f → f.toNat ≤ 7) :
    operandFault i s = pcFault (fallsThrough s.flags.e i) i.width s := by
  rw [operandFault, fieldFault_legal fun v hv => h v (.inl hv), fieldFault_legal fun v hv => h v (.inr hv),
    Option.none_or, Option.none_or]

/-! ### What an instruction answers -/

/-- `t` is `s` after the instruction completed, as far as the pc, the record and `status` tell (R62, R66). -/
structure Completed (i : Instr) (s t : State) : Prop where
  pc : t.pc = nextPc s i
  record : t.faultRecord = s.faultRecord
  status : t.status = if i = .hlt then .halted else s.status

/-- An answer agrees with the first failing check: it is that fault, or with none a completion. -/
inductive Answers (s : State) (done : State → Prop) : Option (FaultSubkind × Nat) → Result → Prop
  | fault (k : FaultSubkind) (n : Nat) : Answers s done (some (k, n)) (.next (s.faulted .outOfRange k n))
  | completed {t : State} (h : done t) : Answers s done none (.next t)

variable {done : State → Prop} {c : Option (FaultSubkind × Nat)}

theorem withReg_answers {f : RegField} {k : RegIdx → Result}
    (hk : ∀ hf : f.toNat < 8, Answers s done c (k (fieldReg f hf))) :
    Answers s done ((fieldFault (some f)).or c) (withReg f s k) := by
  by_cases hf : f.toNat < 8
  · rw [withReg_legal hf, fieldFault_legal (by rintro _ ⟨⟩; exact Nat.le_of_lt_succ hf), Option.none_or]
    exact hk hf
  · have hf : 7 < f.toNat := Nat.lt_of_not_le fun h => hf (Nat.lt_succ_of_le h)
    rw [withReg_illegal hf, fieldFault_illegal hf]
    exact .fault _ _

theorem withNextPc_answers {w : Nat} {k : Byte → State} (hk : done (k (s.pc + BitVec.ofNat 8 w))) :
    Answers s done (pcFault true w s) (withNextPc w s fun p => .next (k p)) := by
  by_cases hp : s.pc.toNat + w ≤ 255
  · rw [withNextPc_fits hp, pcFault_fits fun _ => hp]
    exact .completed hk
  · rw [withNextPc_over (Nat.lt_of_not_le hp), pcFault_over (Nat.lt_of_not_le hp)]
    exact .fault _ _

theorem fieldValue_legal {a : Byte} (ha : a.toNat < 8) : fieldValue s a = s.readReg (fieldReg a ha) := by
  simp [fieldValue, State.readReg, fieldReg, ha]

/-- CALL's target, read after the decrement of SP (R80). -/
theorem readReg_push_returnAddress {a : Byte} (ha : a.toNat < 8) :
    (s.push returnAddress).readReg (fieldReg a ha) = nextPc s (.call a) := by
  rw [State.readReg_push, nextPc]
  by_cases h7 : a = 7
  · subst h7
    rw [if_pos rfl, State.decSp_eq]
    exact Vector.getElem_set_self (by decide)
  · have hne : fieldReg a ha ≠ Config.spIndex := fun h =>
      h7 (BitVec.eq_of_toNat_eq (congrArg (fun r : RegIdx => r.val) h))
    rw [if_neg h7, State.readReg_decSp s hne, fieldValue_legal ha]

/-- A jump checks its field whatever `taken` says, and the sequential pc only when it falls through (R59, R60). -/
theorem jumpIf_answers {taken falls : Bool} {a : Byte} (hfalls : falls = !taken)
    (hjump : ∀ ha : a.toNat < 8, taken = true → done (s.setPc (s.readReg (fieldReg a ha))))
    (hfall : taken = false → done (s.setPc (s.pc + 2))) :
    Answers s done ((fieldFault (some a)).or (pcFault falls 2 s)) (jumpIf taken a s) := by
  subst hfalls
  refine withReg_answers fun ha => ?_
  cases taken with
  | true => exact .completed (hjump ha rfl)
  | false =>
    rw [if_neg Bool.false_ne_true]
    exact withNextPc_answers (hfall rfl)

/-- Every instruction makes its checks in the order of R63 and, when they pass, completes as the table of R62 says. -/
theorem exec_answers (i : Instr) (s : State) : Answers s (Completed i s) (operandFault i s) (exec i s) := by
  cases i with
  | hlt =>
    change Answers s _ (pcFault true 1 s) (execHlt s)
    exact withNextPc_answers ⟨rfl, rfl, rfl⟩
  | ldi a imm => exact withReg_answers fun _ => withNextPc_answers ⟨rfl, rfl, rfl⟩
  | prn a => exact withReg_answers fun _ => withNextPc_answers ⟨rfl, rfl, rfl⟩
  | add a b => exact withReg_answers fun _ => withReg_answers fun _ => withNextPc_answers ⟨rfl, rfl, rfl⟩
  | mul a b => exact withReg_answers fun _ => withReg_answers fun _ => withNextPc_answers ⟨rfl, rfl, rfl⟩
  | cmp a b => exact withReg_answers fun _ => withReg_answers fun _ => withNextPc_answers ⟨rfl, rfl, rfl⟩
  | push a => exact withReg_answers fun _ => withNextPc_answers ⟨rfl, rfl, rfl⟩
  | pop a => exact withReg_answers fun _ => withNextPc_answers ⟨rfl, rfl, rfl⟩
  | call a => exact withReg_answers fun ha => .completed ⟨readReg_push_returnAddress ha, rfl, rfl⟩
  | ret => exact .completed ⟨rfl, rfl, rfl⟩
  | jmp a =>
    refine jumpIf_answers (taken := true) rfl (fun ha _ => ?_) nofun
    exact ⟨(fieldValue_legal ha).symm, rfl, rfl⟩
  | jeq a =>
    refine jumpIf_answers rfl (fun ha he => ?_) fun he => ?_
    · exact ⟨by simp [nextPc, he, fieldValue_legal ha], rfl, rfl⟩
    · exact ⟨by simp [nextPc, he], rfl, rfl⟩
  | jne a =>
    refine jumpIf_answers (Bool.not_not _).symm (fun ha he => ?_) fun he => ?_
    · exact ⟨by simp_all [nextPc, fieldValue_legal ha], rfl, rfl⟩
    · exact ⟨by simp_all [nextPc], rfl, rfl⟩

theorem Answers.faulted {k : FaultSubkind} {n : Nat} {o : Result} (h : Answers s done (some (k, n)) o) :
    o = .next (s.faulted .outOfRange k n) := by
  cases h; rfl

theorem Answers.cases_next (h : Answers s done c (.next t)) :
    (∃ k n, c = some (k, n) ∧ t = s.faulted .outOfRange k n) ∨ (c = none ∧ done t) := by
  cases h with
  | fault k n => exact .inl ⟨k, n, rfl, rfl⟩
  | completed h => exact .inr ⟨rfl, h⟩

theorem exec_of_operandFault {k : FaultSubkind} {n : Nat} (h : operandFault i s = some (k, n)) :
    exec i s = .next (s.faulted .outOfRange k n) :=
  Answers.faulted (h ▸ exec_answers i s)

/-- The inversion of `exec` that names the check that fails, and says that none does when it completes. -/
theorem exec_cases (h : exec i s = .next t) :
    (∃ k n, operandFault i s = some (k, n) ∧ t = s.faulted .outOfRange k n) ∨
    (operandFault i s = none ∧ Completed i s t) :=
  Answers.cases_next (h ▸ exec_answers i s)

theorem exec_completed (h : exec i s = .next t) (hn : operandFault i s = none) : Completed i s t := by
  rcases exec_cases h with ⟨k, n, hf, -⟩ | ⟨-, hc⟩
  · rw [hn] at hf; cases hf
  · exact hc

/-! ### The statements about one instruction -/

/-- Falling through is `pc + w` (R62, case (a)). -/
theorem nextPc_fallsThrough (h : fallsThrough s.flags.e i = true) : nextPc s i = s.pc + BitVec.ofNat 8 i.width := by
  cases i with
  | jeq a => rw [nextPc, if_neg (by simpa [fallsThrough] using h)]; rfl
  | jne a => rw [nextPc, if_pos (by simpa [fallsThrough] using h)]; rfl
  | call | ret | jmp => cases h
  | _ => rfl

theorem add_width_ne (i : Instr) (pc : Byte) : pc + BitVec.ofNat 8 i.width ≠ pc := by
  obtain ⟨hpos, hle⟩ := width_bounds i
  have hlt := pc.isLt
  rw [Ne, ← BitVec.toNat_inj, BitVec.toNat_add, BitVec.toNat_ofNat]
  omega

/-- Settles O25: an instruction that does not fault completes with the pc of the table. -/
theorem pcUpdateTable : Obligations.PcUpdateTable := by
  refine ⟨?table, fun i s => nextPc_fallsThrough, ?advances⟩
  case table =>
    intro i s t _ _ h _ hnf
    rcases exec_cases h with ⟨k, n, -, rfl⟩ | ⟨-, hpc, -, hstatus⟩
    · exact absurd rfl hnf
    · exact ⟨hpc, fun hi => by rw [hstatus, if_pos hi]⟩
  case advances =>
    intro i s hfall
    rw [nextPc_fallsThrough hfall]
    exact add_width_ne i s.pc

/-- Settles O28: an illegal field is the first check to fail; with legal fields the one check left is of an address. -/
theorem registerFieldsAreChecked : Obligations.RegisterFieldsAreChecked := by
  refine ⟨fun i s a ha h => exec_of_operandFault (operandFault_fieldA ha h),
    fun i s a b ha hb hal h => exec_of_operandFault (operandFault_fieldB ha hb hal h), ?legal⟩
  intro i s t hlegal h hreg
  rcases exec_cases h with ⟨k, n, hf, rfl⟩ | ⟨-, hc⟩
  · have hk : k = .address := pcFault_address (operandFault_legal hlegal ▸ hf)
    exact absurd (hk.symm.trans hreg) (by decide)
  · exact hc.record

/-- With the fetch window in memory, only a 3-byte instruction at 253 has a sequential pc over 255. -/
theorem pc_add_width_over_iff (i : Instr) {pc : Byte} (hp : pc.toNat ≤ 253) :
    255 < pc.toNat + i.width ↔ pc = 253 ∧ i.width = 3 := by
  obtain ⟨-, hle⟩ := width_bounds i
  rw [← BitVec.toNat_inj]
  change _ ↔ pc.toNat = 253 ∧ _
  omega

/-- Settles O29: with legal fields the sequential pc is the one check left. -/
theorem sequentialPcIsChecked : Obligations.SequentialPcIsChecked := by
  refine ⟨?faults, ?completes, fun i s _ hp => pc_add_width_over_iff i hp⟩
  case faults =>
    intro i s hwf hfall hover
    apply exec_of_operandFault
    rw [operandFault_legal ((wellFormed_iff i).1 hwf), hfall, pcFault_over hover]
  case completes =>
    intro i s t hwf hfits h
    have hnone : operandFault i s = none := by
      rw [operandFault_legal ((wellFormed_iff i).1 hwf), pcFault_fits hfits]
    obtain ⟨-, hrecord, hstatus⟩ := exec_completed h hnone
    refine ⟨hrecord, ?_⟩
    by_cases hi : i = .hlt
    · exact .inr ⟨hi, by rw [hstatus, if_pos hi]⟩
    · exact .inl (by rw [hstatus, if_neg hi])

end Sys2Proof.Machine
end

section
/-! SUPPORT. A step of a Running machine against the list of R63 (40_dispatch.md R57 to R60, R63, R64): the step is the
first fault that applies to the pc, the fetched bytes and E, and completes when none does. -/

namespace Sys2Proof.Machine

open Sys2Proof.Claims

variable {i : Instr} {s t : State} {pc : Nat} {op a b : Byte} {e : Bool}

/-! ### The list of R63 against the checks of the decoded instruction -/

theorem fieldFault_fieldA_of_decode (h : decodeWindow op a b = .ok i) : fieldFault (fieldA i) =
    if op ∉ ([0x01, 0x11] : List Byte) ∧ 7 < a.toNat then some (.register, a.toNat) else none := by
  obtain ⟨rfl, hops⟩ := decodeWindow_ok h
  cases i <;> simp_all [Instr.opcode, Instr.operands, fieldA, fieldFault]

theorem fieldFault_fieldB_of_decode (h : decodeWindow op a b = .ok i) : fieldFault (fieldB i) =
    if op ∈ ([0xA0, 0xA2, 0xA7] : List Byte) ∧ 7 < b.toNat then some (.register, b.toNat) else none := by
  obtain ⟨rfl, hops⟩ := decodeWindow_ok h
  cases i <;> simp_all [Instr.opcode, Instr.operands, fieldB, fieldFault]

theorem width_three_iff (i : Instr) : i.width = 3 ↔ i.opcode ∈ ([0x82, 0xA0, 0xA2, 0xA7] : List Byte) := by
  cases i <;> simp [Instr.width, Instr.format, Format.width, Instr.opcode]

theorem fallsThrough_of_width_three (h : i.width = 3) : fallsThrough e i = true := by
  cases i with
  | call | ret | jmp | jeq | jne => cases h
  | _ => rfl

/-- With the fetch window in memory only a 3-byte instruction's sequential pc can be over 255 (R60). -/
theorem pcFault_of_window (i : Instr) (hp : s.pc.toNat ≤ 253) : pcFault (fallsThrough e i) i.width s =
    if i.opcode ∈ ([0x82, 0xA0, 0xA2, 0xA7] : List Byte) ∧ 255 < s.pc.toNat + 3 then
      some (.address, 256) else none := by
  by_cases hover : i.width = 3 ∧ 255 < s.pc.toNat + 3
  · obtain ⟨hw, hpc⟩ := hover
    rw [if_pos ⟨(width_three_iff i).1 hw, hpc⟩, fallsThrough_of_width_three hw, pcFault_over (hw.symm ▸ hpc), hw,
      show s.pc.toNat + 3 = 256 by omega]
  · obtain ⟨-, hle⟩ := width_bounds i
    rw [if_neg fun h => hover ⟨(width_three_iff i).2 h.1, h.2⟩, pcFault_fits fun _ => by omega]

theorem firstFault_top (h : 254 ≤ pc) : firstFault pc op a b e = some (.outOfRange, .address, 256) := by
  rw [firstFault]
  by_cases h1 : 255 < pc + 1
  · rw [if_pos h1]
  · rw [if_neg h1, if_pos (by omega)]

theorem firstFault_unlisted (hp : pc ≤ 253) (hop : op ∉ opcodeMap.map Prod.fst) :
    firstFault pc op a b e = some (.unsupportedInstruction, .address, BitVec.ofNat 9 op.toNat) := by
  rw [firstFault, if_neg (by omega), if_neg (by omega), if_pos (opcodeMap_opcodes ▸ hop)]

/-- For a listed opcode whose window lies in memory the first fault of R63 is the first operand check that fails. -/
theorem firstFault_decoded (hp : s.pc.toNat ≤ 253) (h : decodeWindow op a b = .ok i) :
    firstFault s.pc.toNat op a b s.flags.e =
      (operandFault i s).map fun (k, n) => (.outOfRange, k, BitVec.ofNat 9 n) := by
  have hlisted := (decodeWindow_isOk_iff op a b).1 ⟨i, h⟩
  rw [opcodeMap_opcodes] at hlisted
  have h1 : ¬ 255 < s.pc.toNat + 1 := by omega
  have h2 : ¬ 255 < s.pc.toNat + 2 := by omega
  obtain ⟨hi, -⟩ := decodeWindow_ok h
  rw [operandFault, fieldFault_fieldA_of_decode h, fieldFault_fieldB_of_decode h, pcFault_of_window i hp, hi, firstFault]
  simp only [h1, h2, hlisted, not_true_eq_false, and_false, if_false]
  split_ifs <;> rfl

/-! ### The step -/

/-- Fault entry after any part of the fetch that latched the opcode, and the release of the latches (R91). -/
theorem stepFaults_releaseLatches {latch : FetchLatch} (hop : latch.op = s.memRead s.pc) (c : FaultCause)
    (k : FaultSubkind) (n : Nat) :
    StepFaults s ({ s with latch := latch }.faulted c k n).releaseLatches c k (BitVec.ofNat 9 n) := by
  rw [StepFaults, State.faulted, hop]
  rfl

/-- Settles O30: each way a step can end is the one the list of R63 names. -/
theorem firstFaultIsRaised : Obligations.FirstFaultIsRaised := by
  intro s t hr h
  rcases step_cases h with ⟨hnr, -⟩ | ⟨-, hp, latch, hop, rfl⟩ | ⟨-, hp, ⟨e, he⟩, rfl⟩ | ⟨-, hp, i, u, hd, hu, rfl⟩
  · exact absurd hr hnr
  · rw [firstFault_top hp]
    exact stepFaults_releaseLatches hop _ _ _
  · obtain ⟨hn, -⟩ := decodeWindow_error he
    rw [← State.memRead, firstFault_unlisted hp hn]
    exact stepFaults_releaseLatches rfl _ _ _
  · rw [← memRead_pc_one hp, ← memRead_pc_two hp, ← State.memRead, firstFault_decoded hp hd]
    rcases exec_cases hu with ⟨k, n, hf, rfl⟩ | ⟨hf, -, hrecord, hstatus⟩
    · rw [show operandFault i s = some (k, n) from hf]
      exact stepFaults_releaseLatches rfl _ _ _
    · rw [show operandFault i s = none from hf]
      refine ⟨?_, hrecord⟩
      change u.status ≠ .faulted
      rw [hstatus, show s.fetched.status = .running from hr]
      split_ifs <;> decide

theorem firstFault_cause {c : FaultCause} {k : FaultSubkind} {n : BitVec 9}
    (h : firstFault pc op a b e = some (c, k, n)) : c ≠ .none := by
  unfold firstFault at h
  split_ifs at h <;> cases h <;> decide

theorem step_stepFaults (hr : s.status = .running) (h : step s = .next t) (hf : t.status = .faulted) :
    ∃ c k n, c ≠ .none ∧ StepFaults s t c k n := by
  have hfirst := firstFaultIsRaised s t hr h
  split at hfirst
  · next c k n hc => exact ⟨c, k, n, firstFault_cause hc, hfirst⟩
  · exact absurd hf hfirst.1

/-- Settles O32: the fault a step raises is the one of R63, and fault entry writes `status` and the record only. -/
theorem faultsArePrecise : Obligations.FaultsArePrecise := by
  intro s t hr h hf
  obtain ⟨c, k, n, hc, ht⟩ := step_stepFaults hr h hf
  rw [StepFaults] at ht
  rw [ht]
  exact ⟨rfl, rfl, rfl, rfl, rfl, hc, rfl, rfl, rfl⟩

/-! ### The fetch past the top of memory (R57) -/

/-- A step that faults in its fetch issues the reads of the fetch that lie in memory and nothing else (R54, R57). -/
theorem stepTransactions_outside (hr : s.status = .running) (hp : 254 ≤ s.pc.toNat) :
    stepTransactions s = fetchTransactions s := by
  obtain ⟨latch, -, h⟩ := fetchWindow_outside hp dispatch
  rw [stepTransactions, if_neg (not_not_intro hr), h]
  rfl

theorem step_outside_stepFaults (hr : s.status = .running) (hp : 254 ≤ s.pc.toNat) :
    ∃ t, step s = .next t ∧ StepFaults s t .outOfRange .address 256 := by
  obtain ⟨latch, hop, h⟩ := step_outside hr hp
  exact ⟨_, h, stepFaults_releaseLatches hop _ _ _⟩

/-- Settles O26: at 255 and at 254 the address reported is 256, and the reads are those below it. -/
theorem operandFetchPastMemoryFaults : Obligations.OperandFetchPastMemoryFaults := by
  intro s hr
  refine ⟨fun h1 => ?at255, fun h1 h2 => ?at254⟩
  case at255 =>
    have hpc : s.pc = 255 := BitVec.eq_of_toNat_eq (by have := s.pc.isLt; simp; omega)
    refine ⟨by rw [hpc]; exact step_outside_stepFaults hr (by omega), ?_⟩
    rw [stepTransactions_outside hr (by omega), fetchTransactions, hpc]
    rfl
  case at254 =>
    have hpc : s.pc = 254 := BitVec.eq_of_toNat_eq (by simp; omega)
    refine ⟨by rw [hpc]; exact step_outside_stepFaults hr (by omega), ?_⟩
    rw [stepTransactions_outside hr (by omega), fetchTransactions, hpc]
    rfl

end Sys2Proof.Machine
end

section
/-! SUPPORT. HLT, LDI and PRN (41_control_io.md R66 to R68): what each leaves when its checks pass, and its faults as
cases of the operand checks. -/

namespace Sys2Proof.Machine

open Sys2Proof.Claims

variable {a v : Byte} {s : State}

/-! ### Completion -/

theorem exec_hlt_completes (hp : s.pc.toNat + 1 ≤ 255) :
    exec .hlt s = .next ((s.setPc (s.pc + 1)).setStatus .halted) := by
  rw [exec, execHlt]
  exact withNextPc_fits hp _

theorem exec_ldi_completes (ha : a.toNat < 8) (hp : s.pc.toNat + 3 ≤ 255) :
    exec (.ldi a v) s = .next ((s.writeReg (fieldReg a ha) v).setPc (s.pc + 3)) := by
  rw [exec, execLdi, withReg_legal ha]
  exact withNextPc_fits hp _

theorem exec_prn_completes (ha : a.toNat < 8) (hp : s.pc.toNat + 2 ≤ 255) :
    exec (.prn a) s = .next ((s.emit (s.readReg (fieldReg a ha))).setPc (s.pc + 2)) := by
  rw [exec, execPrn, withReg_legal ha]
  exact withNextPc_fits hp _

/-! ### Faults, in the words of the statements -/

/-- At 253 the byte after a 3-byte instruction with legal fields is past the top of memory (R60). -/
theorem exec_at_253_faults {i : Instr} (hwf : i.wellFormed = true) (hw : i.width = 3) (hpc : s.pc = 253) :
    exec i s = .next (FaultState s .outOfRange .address 256) := by
  have hover : s.pc.toNat + i.width = 256 := by rw [hpc, hw]; rfl
  have h := sequentialPcIsChecked.1 i s hwf (fallsThrough_of_width_three hw) (by omega)
  rwa [hover] at h

/-- The fetch faults whatever the opcode, as it does not look at it (R57). -/
theorem faultsAtTop (op : Byte) : FaultsAtTop op := fun _ hr hp _ => step_outside_stepFaults hr hp

/-! ### The statements -/

/-- Settles O7: HLT's one check in `exec` is of the sequential pc, and `run` leaves Halted with that pc. -/
theorem hltHalts : Obligations.HltHalts := by
  refine ⟨rfl, ?completes, fun _ => rfl, faultsAtTop _⟩
  case completes =>
    intro s hp
    exact exec_hlt_completes (by omega)

/-- Settles O8: LDI checks A, then the sequential pc, and never its immediate. -/
theorem ldiLoadsImmediate : Obligations.LdiLoadsImmediate := by
  refine ⟨fun _ _ => rfl, ?completes, ?illegal_field, ?past_memory, faultsAtTop _⟩
  case completes =>
    intro a v s ha hp
    exact exec_ldi_completes ha (by omega)
  case illegal_field =>
    intro a v s ha
    exact registerFieldsAreChecked.1 (.ldi a v) s a rfl ha
  case past_memory =>
    intro a v s ha hpc
    exact exec_at_253_faults (decide_eq_true ha) rfl hpc

/-- Settles O9: PRN checks A before it emits, so a fault emits nothing. -/
theorem prnEmitsRegister : Obligations.PrnEmitsRegister := by
  refine ⟨fun _ => rfl, ?completes, ?illegal_field, faultsAtTop _⟩
  case completes =>
    intro a s ha hp
    exact exec_prn_completes ha (by omega)
  case illegal_field =>
    intro a s ha
    exact registerFieldsAreChecked.1 (.prn a) s a rfl ha

end Sys2Proof.Machine
end

section
/-! SUPPORT. The ALU instructions (42_alu.md R69 to R74): what the ALU computes for each tag, what an instruction of format
F2R does with it, and its faults as cases of the operand checks. -/

namespace Sys2Proof.Machine

open Sys2Proof.Claims

variable {a b : Byte} {s s' : State} {tag : BitVec 2}

/-! ### The ALU (R69 to R74) -/

/-- Narrowing to a byte is narrowing modulo 256 (R9). -/
theorem ofNat_mod_256 (n : Nat) : BitVec.ofNat 8 (n % 256) = BitVec.ofNat 8 n :=
  BitVec.eq_of_toNat_eq (by simp)

theorem alu_add (ra rb : RegIdx) (s : State) : alu aluTagAdd ra rb s =
    some (s.writeReg ra (BitVec.ofNat 8 (((s.readReg ra).toNat + (s.readReg rb).toNat) % 256))) := by
  rw [alu, if_pos rfl, u8_add_toNat, ofNat_mod_256]

theorem alu_mul (ra rb : RegIdx) (s : State) : alu aluTagMul ra rb s =
    some (s.writeReg ra (BitVec.ofNat 8 (((s.readReg ra).toNat * (s.readReg rb).toNat) % 256))) := by
  rw [alu, if_neg (by decide), if_pos rfl, u8_mul_toNat, ofNat_mod_256]

theorem alu_cmp (ra rb : RegIdx) (s : State) : alu aluTagCmp ra rb s =
    some (s.setFlags (compareFlags .clear (s.readReg ra) (s.readReg rb) s.flags)) := rfl

/-- Tag 3 has no case (R74). -/
theorem alu_three (ra rb : RegIdx) (s : State) : alu 3 ra rb s = none := rfl

/-- The Sticky policy only ever raises flags (R7). -/
theorem compareFlags_sticky (x y : Byte) (old : Flags) : compareFlags .sticky x y old =
    { e := if x.toNat = y.toNat then true else old.e,
      g := if x.toNat > y.toNat then true else old.g,
      l := if x.toNat < y.toNat then true else old.l } := by
  simp only [compareFlags, Bool.if_true_left, Bool.or_comm]

/-! ### Format F2R once its checks pass (R59, R60) -/

theorem execAlu_completes (ha : a.toNat < 8) (hb : b.toNat < 8) (hp : s.pc.toNat ≤ 252)
    (h : alu tag (fieldReg a ha) (fieldReg b hb) s = some s') :
    execAlu tag a b s = .next (s'.setPc (s.pc + 3)) := by
  have hfits : s.pc.toNat + Format.f2r.width ≤ 255 := Nat.add_le_add_right hp 3
  rw [execAlu, withReg_legal ha, withReg_legal hb, withNextPc_fits hfits, h]
  rfl

theorem execAlu_without_case (ha : a.toNat < 8) (hb : b.toNat < 8) (hp : s.pc.toNat ≤ 252)
    (h : alu tag (fieldReg a ha) (fieldReg b hb) s = none) :
    execAlu tag a b s = .next (s.faulted .unsupportedAluOperation .address tag.toNat) := by
  have hfits : s.pc.toNat + Format.f2r.width ≤ 255 := Nat.add_le_add_right hp 3
  rw [execAlu, withReg_legal ha, withReg_legal hb, withNextPc_fits hfits, h]
  rfl

/-! ### Faults of format F2R -/

/-- Every instruction with fields A and B and 3 bytes faults alike: A, then B, then the byte after it; and in the fetch
at the top of memory (R57, R59, R60). -/
theorem f2r_faults (op : Byte) {mk : Byte → Byte → Instr} (hA : ∀ a b, fieldA (mk a b) = some a)
    (hB : ∀ a b, fieldB (mk a b) = some b) (hw : ∀ a b, (mk a b).width = 3) :
    (∀ (a b : Byte) (s : State), 7 < a.toNat →
      exec (mk a b) s = .next (FaultState s .outOfRange .register (BitVec.ofNat 9 a.toNat))) ∧
    (∀ (a b : Byte) (s : State), a.toNat < 8 → 7 < b.toNat →
      exec (mk a b) s = .next (FaultState s .outOfRange .register (BitVec.ofNat 9 b.toNat))) ∧
    (∀ (a b : Byte) (s : State), a.toNat < 8 → b.toNat < 8 → s.pc = 253 →
      exec (mk a b) s = .next (FaultState s .outOfRange .address 256)) ∧
    FaultsAtTop op := by
  obtain ⟨illegalA, illegalB, -⟩ := registerFieldsAreChecked
  refine ⟨fun a b s ha => illegalA _ s a (hA a b) ha,
    fun a b s ha hb => illegalB _ s a b (hA a b) (hB a b) (Nat.le_of_lt_succ ha) hb, ?past_memory, faultsAtTop op⟩
  case past_memory =>
    intro a b s ha hb hpc
    have hwf : (mk a b).wellFormed = true := by
      rw [wellFormed_iff, hA, hB]
      rintro f (⟨⟨⟩⟩ | ⟨⟨⟩⟩) <;> omega
    exact exec_at_253_faults hwf (hw a b) hpc

/-! ### The statements -/

/-- Settles O13: tag 3 passes the checks and finds no case; an instruction's own faults name `OutOfRange` only. -/
theorem aluTagWithoutCaseFaults : Obligations.AluTagWithoutCaseFaults := by
  refine ⟨fun a b s ha hb hp => execAlu_without_case ha hb hp (alu_three _ _ _), ?no_instruction⟩
  case no_instruction =>
    intro i s t h hcause
    rcases exec_status h with hf | ⟨hrecord, -⟩
    · rw [hf.cause] at hcause
      cases hcause
    · exact hrecord

/-- Settles O10: the ALU's sum is narrowed to a byte. -/
theorem addWrapsModulo256 : Obligations.AddWrapsModulo256 :=
  ⟨fun _ _ => rfl, fun _ _ _ ha hb hp => execAlu_completes ha hb hp (alu_add _ _ _),
    f2r_faults _ (fun _ _ => rfl) (fun _ _ => rfl) (fun _ _ => rfl)⟩

/-- Settles O11: the ALU's product is narrowed to a byte. -/
theorem mulKeepsLowByte : Obligations.MulKeepsLowByte :=
  ⟨fun _ _ => rfl, fun _ _ _ ha hb hp => execAlu_completes ha hb hp (alu_mul _ _ _),
    f2r_faults _ (fun _ _ => rfl) (fun _ _ => rfl) (fun _ _ => rfl)⟩

/-- Settles O12: under the Clear policy the old flags do not enter the comparison. -/
theorem cmpSetsFlags : Obligations.CmpSetsFlags :=
  ⟨fun _ _ => rfl, fun _ _ _ ha hb hp => execAlu_completes ha hb hp (alu_cmp _ _ _), compareFlags_sticky,
    f2r_faults _ (fun _ _ => rfl) (fun _ _ => rfl) (fun _ _ => rfl)⟩

end Sys2Proof.Machine
end

section
/-! SUPPORT. The stack (43_stack.md R75 to R81): the two primitives as whole-state updates, what PUSH, POP, CALL and RET
make of them, and the faults of an instruction with one register field. -/

namespace Sys2Proof.Machine

open Sys2Proof.Claims

/-! ### The stack pointer controller (R75, R76) -/

namespace State

variable {s : State}

theorem sp_decSp_eq (s : State) : s.decSp.sp = s.regs[7] - 1 := by
  rw [sp_decSp, u8_pred]; rfl

theorem readReg_decSp_eq (s : State) (r : RegIdx) : s.decSp.readReg r = (s.regs.set 7 (s.regs[7] - 1))[r] := by
  rw [decSp_eq]; rfl

theorem push_eq (s : State) (value : State → Byte) :
    s.push value = { s with
      regs := s.regs.set 7 (s.regs[7] - 1),
      mem := s.mem.write (s.regs[7] - 1).toNat (value { s with regs := s.regs.set 7 (s.regs[7] - 1) }) } := by
  rw [push, sp_decSp_eq, decSp_eq]; rfl

theorem pop_eq (s : State) (dest : State → Byte → State) :
    s.pop dest = { dest s (s.mem.read s.regs[7].toNat) with
      regs := (dest s (s.mem.read s.regs[7].toNat)).regs.set 7
        ((dest s (s.mem.read s.regs[7].toNat)).regs[7] + 1) } := by
  rw [pop, incSp_eq]; rfl

/-- A push changes the byte at the decremented SP and no other. -/
theorem read_push (hm : s.mem.wf = true) (value : State → Byte) (addr : Byte) :
    (s.push value).mem.read addr.toNat =
      if addr = s.regs[7] - 1 then value s.decSp else s.mem.read addr.toNat := by
  rw [push_mem, Memory.read_write _ hm, sp_decSp_eq]
  simp only [BitVec.toNat_inj]

theorem push_regs_seven (s : State) (value : State → Byte) : (s.push value).regs[7] = s.regs[7] - 1 :=
  sp_decSp_eq s

/-- A pop whose destination is the pc increments the SP it loaded at. -/
theorem pop_setPc_regs_seven (s : State) : (s.pop setPc).regs[7] = s.regs[7] + 1 :=
  (sp_incSp _).trans (u8_succ _)

end State

theorem returnAddress_eq (s : State) : returnAddress s = BitVec.ofNat 8 (s.pc.toNat + 2) := by
  rw [returnAddress, ← u8_natCast]; rfl

/-! ### Completion -/

variable {a : Byte} {s : State}

theorem exec_push_completes (ha : a.toNat < 8) (hp : s.pc.toNat ≤ 253) :
    exec (.push a) s = .next ((s.push (State.readReg · (fieldReg a ha))).setPc (s.pc + 2)) := by
  rw [exec, execPush, withReg_legal ha]
  exact withNextPc_fits (Nat.add_le_add_right hp 2) _

theorem exec_pop_completes (ha : a.toNat < 8) (hp : s.pc.toNat ≤ 253) :
    exec (.pop a) s = .next ((s.pop (State.writeReg · (fieldReg a ha))).setPc (s.pc + 2)) := by
  rw [exec, execPop, withReg_legal ha]
  exact withNextPc_fits (Nat.add_le_add_right hp 2) _

/-- CALL does not fall through, so it completes at every pc (R60). -/
theorem exec_call_completes (ha : a.toNat < 8) : exec (.call a) s =
    .next ((s.push returnAddress).setPc ((s.push returnAddress).readReg (fieldReg a ha))) := by
  rw [exec, execCall, withReg_legal ha]

/-! ### Faults of format F1 -/

/-- Every instruction with field A alone faults alike: A, and in the fetch at the top of memory (R57, R59). -/
theorem f1_faults (op : Byte) {mk : Byte → Instr} (hA : ∀ a, fieldA (mk a) = some a) :
    (∀ (a : Byte) (s : State), 7 < a.toNat →
      exec (mk a) s = .next (FaultState s .outOfRange .register (BitVec.ofNat 9 a.toNat))) ∧
    FaultsAtTop op :=
  ⟨fun a s ha => registerFieldsAreChecked.1 (mk a) s a (hA a) ha, faultsAtTop op⟩

/-! ### The statements -/

/-- Settles O14: the push primitive as one update of registers and memory, read at the reset SP and at SP 0. -/
theorem pushDecrementsThenStores : Obligations.PushDecrementsThenStores := by
  refine ⟨State.push_eq, fun v => ⟨State.push_regs_seven _ _, ?stored⟩, ?wraps⟩
  case stored => exact (State.read_push Memory.wf_reset _ 0xF3).trans (if_pos rfl)
  case wraps =>
    intro s value h0
    rw [State.push_regs_seven, h0]
    rfl

/-- Settles O15: the pop primitive as one update of what its destination left. -/
theorem popLoadsThenIncrements : Obligations.PopLoadsThenIncrements := by
  refine ⟨State.pop_eq, fun s h255 => ⟨?wraps, ?loaded⟩⟩
  case wraps =>
    rw [State.pop_setPc_regs_seven, h255]
    rfl
  case loaded =>
    rw [State.pop_eq, h255]
    rfl

/-- Settles O16: PUSH is the push primitive with x[A], read after the decrement, as its value. -/
theorem pushStoresRegister : Obligations.PushStoresRegister := by
  refine ⟨fun _ => rfl, ?completes, f1_faults _ fun _ => rfl⟩
  case completes =>
    intro a s ha hm hp
    refine ⟨_, exec_push_completes ha hp, by rw [State.push_eq]; rfl, fun addr => ?_⟩
    rw [State.setPc_mem, State.read_push hm, State.readReg_decSp_eq]
    rfl

/-- Settles O17: POP is the pop primitive with x[A] as its destination. -/
theorem popLoadsRegister : Obligations.PopLoadsRegister := by
  refine ⟨fun _ => rfl, ?completes, f1_faults _ fun _ => rfl⟩
  case completes =>
    intro a s ha hp
    rw [exec_pop_completes ha hp, State.pop_eq]
    rfl

/-- Settles O18: CALL is the push primitive with the return address as its value, then a jump. -/
theorem callPushesReturnAddress : Obligations.CallPushesReturnAddress := by
  refine ⟨fun _ => rfl, ?completes, f1_faults _ fun _ => rfl⟩
  case completes =>
    intro a s ha hm hp
    refine ⟨_, exec_call_completes ha, by rw [State.push_eq]; rfl, fun addr => ?_, Nat.add_le_add_right hp 2⟩
    rw [State.setPc_mem, State.read_push hm, returnAddress_eq]
    rfl

/-- Settles O19: RET is the pop primitive with the pc as its destination, and checks nothing. -/
theorem retPopsPc : Obligations.RetPopsPc := by
  refine ⟨rfl, ?completes, faultsAtTop _⟩
  case completes =>
    intro s
    rw [exec, execRet, State.pop_eq]
    rfl

end Sys2Proof.Machine
end

section
/-! SUPPORT. The jumps JMP, JEQ and JNE (44_jumps.md R82 to R85): the one conditional jump behind them, whose new pc
depends on whether it is taken, and what each instruction makes of it. -/

namespace Sys2Proof.Machine

open Sys2Proof.Claims

variable {a : Byte} {s : State}

/-! ### The conditional jump -/

/-- A taken jump never computes `pc + 2`, so it completes at every pc (R60, R82). -/
theorem jumpIf_taken (ha : a.toNat < 8) : jumpIf true a s = .next (s.setPc s.regs[a.toNat]) := by
  rw [jumpIf, withReg_legal ha]
  rfl

theorem jumpIf_not_taken (ha : a.toNat < 8) (hp : s.pc.toNat ≤ 253) :
    jumpIf false a s = .next (s.setPc (s.pc + 2)) := by
  rw [jumpIf, withReg_legal ha, if_neg Bool.false_ne_true]
  exact withNextPc_fits (Nat.add_le_add_right hp 2) _

/-- Inside the fetch window both ways complete, and they differ in the pc alone. -/
theorem jumpIf_completes (taken : Bool) (ha : a.toNat < 8) (hp : s.pc.toNat ≤ 253) :
    jumpIf taken a s = .next (s.setPc (if taken then s.regs[a.toNat] else s.pc + 2)) := by
  cases taken with
  | true => exact jumpIf_taken ha
  | false => exact jumpIf_not_taken ha hp

/-! ### The statements -/

/-- Settles O22: JMP is the jump that is always taken. -/
theorem jmpJumps : Obligations.JmpJumps :=
  ⟨fun _ => rfl, fun _ _ ha => jumpIf_taken ha, f1_faults _ fun _ => rfl⟩

/-- Settles O23: JEQ is the jump taken when E is set. -/
theorem jeqJumpsWhenEqual : Obligations.JeqJumpsWhenEqual :=
  ⟨fun _ => rfl, fun _ s ha hp => jumpIf_completes s.flags.e ha hp, f1_faults _ fun _ => rfl⟩

/-- Settles O24: JNE is the jump taken when E is clear. -/
theorem jneJumpsWhenNotEqual : Obligations.JneJumpsWhenNotEqual := by
  refine ⟨fun _ => rfl, ?completes, f1_faults _ fun _ => rfl⟩
  case completes =>
    intro a s ha hp
    rw [exec, execJne, jumpIf_completes _ ha hp]
    cases s.flags.e with
    | true => rfl
    | false => rfl

end Sys2Proof.Machine
end

section
/-! SUPPORT. Faults as exceptions (60_exceptions.md R88, R91, R92): the decode fault, what fault entry leaves, and that
neither a step nor a host event but reset leaves Faulted. -/

namespace Sys2Proof.Machine

open Sys2Proof.Claims

variable {s : State}

/-! ### The CORE and the host in Faulted -/

theorem stepTransactions_idle (h : s.status ≠ .running) : stepTransactions s = [] := if_pos h

/-- Faulted is not Running, so the CORE takes no step (R55). -/
theorem ne_running_of_faulted (h : s.status = .faulted) : s.status ≠ .running := by
  rw [h]; decide

theorem step_faulted (h : s.status = .faulted) : step s = .next s := step_idle (ne_running_of_faulted h)

theorem hostRun_faulted (h : s.status = .faulted) : hostRun s = s := by
  rw [hostRun, h]

/-- The loader writes memory only (R102). -/
theorem hostLoad_rest (image : List Byte) (s : State) :
    hostLoad image s = { s with mem := (hostLoad image s).mem } := by
  rw [hostLoad]
  split_ifs <;> rfl

theorem hostReset_status (s : State) : (hostReset s).status = .ready := rfl

/-- Settles O33: Faulted steps by idling, `run` has no case for it, a load writes memory only, and reset gives Ready. -/
theorem faultedIsAbsorbing : Obligations.FaultedIsAbsorbing := by
  intro s hf
  refine ⟨?step, hostRun_faulted hf, ?host, hostReset_status s⟩
  case step =>
    intro t h
    rw [step_faulted hf] at h
    rw [Result.next_inj h]
    exact ⟨hf, rfl⟩
  case host =>
    intro e he
    cases e with
    | run =>
      rw [applyHostEvent, hostRun_faulted hf]
      exact ⟨hf, rfl⟩
    | reset => exact absurd rfl he
    | load image =>
      rw [applyHostEvent, hostLoad_rest]
      exact ⟨hf, rfl⟩

/-! ### The decode fault -/

/-- Settles O27: the window lies in memory and the decoder rejects its opcode, so the step is the decode fault. -/
theorem unlistedOpcodeFaults : Obligations.UnlistedOpcodeFaults := by
  rintro s op a b ⟨hr, hp, rfl, -, -⟩ hop
  rw [← opcodeMap_opcodes] at hop
  exact ⟨_, step_unlisted hr hp (decodeWindow_unlisted hop _ _), stepFaults_releaseLatches rfl _ _ _⟩

/-! ### Fault entry -/

/-- Every `info` of 9 bits is recorded as it is (R23). -/
theorem faulted_info_toNat (s : State) (c : FaultCause) (k : FaultSubkind) {n : Nat} (h : n < 512) :
    (s.faulted c k n).faultRecord.info.toNat = n := by
  rw [State.faulted_faultRecord, BitVec.toNat_ofNat]
  exact Nat.mod_eq_of_lt h

/-- Settles O31: the state of fault entry is Faulted, which idles without a transaction. -/
theorem faultEntryRecordsAndStops : Obligations.FaultEntryRecordsAndStops := by
  intro c k n s hn
  have hf : (s.faulted c k n).status = .faulted := s.faulted_status c k n
  refine ⟨s.faulted c k n, rfl, hf, rfl, rfl, rfl, rfl, faulted_info_toNat s c k hn, rfl, ?stops,
    stepTransactions_idle (ne_running_of_faulted hf)⟩
  case stops =>
    intro u h
    rw [step_faulted hf] at h
    rw [Result.next_inj h]
    exact ⟨hf, s.faulted_pc c k n⟩

end Sys2Proof.Machine
end

section
/-! SUPPORT. The control port's two commands (70_reset_and_hazards.md R101, R104): what reset leaves, and the run
command in each status. -/

namespace Sys2Proof.Machine

variable {s : State}

/-! ### Reset -/

/-- Only SP has a reset value other than 0 (R16). -/
theorem reset_regs_of_ne_sp : ∀ r : RegIdx, r ≠ 7 → State.reset.regs[r] = 0 := by decide

theorem reset_mem_read (a : Nat) : State.reset.mem.read a = 0 := rfl

/-- The reset input leaves the reset state but for the latches, which are unspecified after it, and the model's counter
of free values. -/
theorem hostReset_rest (s : State) :
    hostReset s = { State.reset with latch := (hostReset s).latch, freeIndex := (hostReset s).freeIndex } := rfl

/-- Settles O36: both states are the reset state up to the latches and the counter, of which nothing is said. -/
theorem resetState : Obligations.ResetState := by
  intro s t ht
  have hrest : t = { State.reset with latch := t.latch, freeIndex := t.freeIndex } := by
    rcases List.mem_pair.1 ht with rfl | rfl
    · rfl
    · exact hostReset_rest s
  rw [hrest]
  exact ⟨reset_regs_of_ne_sp, rfl, rfl, rfl, fun addr => reset_mem_read addr.toNat, rfl, rfl, rfl⟩

/-! ### The run command -/

theorem hostRun_ready (h : s.status = .ready) : hostRun s = s.setStatus .running := by
  rw [hostRun, h]

theorem hostRun_halted (h : s.status = .halted) : hostRun s = s.setStatus .running := by
  rw [hostRun, h]

theorem hostRun_running (h : s.status = .running) : hostRun s = s := by
  rw [hostRun, h]

/-- Settles O37: one case of the run command per status. -/
theorem runCommand : Obligations.RunCommand :=
  fun _ => ⟨fun h => h.elim hostRun_ready hostRun_halted, fun h => h.elim hostRun_running hostRun_faulted⟩

end Sys2Proof.Machine
end

section
/-! SUPPORT. Decode against encode (30_encoding.md R37, R38, R41, R45): a window decodes to an instruction exactly when
it begins with that instruction's encoding. -/

namespace Sys2Proof

variable {op a b : Byte} {i : Instr}

/-! ### The window of an instruction -/

theorem length_encode (i : Instr) : (encode i).length = i.width := by cases i <;> rfl

/-- The converse of `decodeWindow_ok`: the opcode byte selects the instruction, and its operands are the fetched
fields. -/
theorem decodeWindow_of_operands (h : i.operands <+: [a, b]) : decodeWindow i.opcode a b = .ok i := by
  cases i with
  | hlt => rfl
  | ret => rfl
  | ldi x y | add x y | mul x y | cmp x y =>
    obtain ⟨rfl, rfl⟩ : x = a ∧ y = b := by simpa [Instr.operands] using h
    rfl
  | prn x | push x | pop x | call x | jmp x | jeq x | jne x =>
    obtain rfl : x = a := by simpa [Instr.operands] using h
    rfl

theorem decodeWindow_ok_iff : decodeWindow op a b = .ok i ↔ encode i <+: [op, a, b] := by
  rw [encode, List.cons_prefix_cons]
  constructor
  · exact decodeWindow_ok
  · rintro ⟨rfl, h⟩
    exact decodeWindow_of_operands h

/-! ### The statements -/

/-- Settles O1: the encoding and the fetch window begin the same bytes, so the shorter begins the longer. -/
theorem decodeEncodeRoundTrip : Obligations.DecodeEncodeRoundTrip := by
  intro i pad _ hlen
  obtain ⟨-, hwidth⟩ := Machine.width_bounds i
  match hbytes : encode i ++ pad with
  | op :: a :: b :: rest =>
    have hwindow : [op, a, b] <+: encode i ++ pad := ⟨rest, hbytes.symm⟩
    have hle : (encode i).length ≤ [op, a, b].length := (length_encode i).trans_le hwidth
    exact decodeWindow_ok_iff.2 (List.prefix_of_prefix_length_le (List.prefix_append _ _) hwindow hle)
  | [] | [_] | [_, _] => simp [hbytes] at hlen

/-- Settles O2: what a window begins with is as many of its first bytes as the format's width. -/
theorem encodeOfDecodedWindow : Obligations.EncodeOfDecodedWindow := by
  intro op a b i h
  refine ⟨?_, length_encode i⟩
  rw [← length_encode i]
  exact List.prefix_iff_eq_take.1 (decodeWindow_ok_iff.1 h)

/-- Settles O4: the opcode map is evaluated at the six opcodes. -/
theorem writtenWordsDecode : Obligations.WrittenWordsDecode := ⟨rfl, rfl, rfl, rfl, rfl, rfl⟩

end Sys2Proof
end

section
/-! SUPPORT. Placing a program (70_reset_and_hazards.md R102, R104; 30_encoding.md R47; 40_dispatch.md R53): the word
`withFetchWord` puts at the pc, the loader's writes, the bytes of an image's tokens, and what the host reads. -/

namespace Sys2Proof.Machine

open Sys2Proof.Claims

variable {s : State} {i : Instr}

/-! ### The word at the pc -/

/-- A table word is read through its fetch window. -/
theorem decodeTableWord_eq_some {nbits w : Nat} (h : decodeTableWord nbits w = some i) :
    decodeWindow (tableByte nbits w 0) (tableByte nbits w 1) (tableByte nbits w 2) = .ok i := by
  rw [decodeTableWord, tableWindow, decode] at h
  cases hd : decodeWindow (tableByte nbits w 0) (tableByte nbits w 1) (tableByte nbits w 2) with
  | ok j =>
    rw [hd] at h
    exact congrArg _ (Option.some.inj h)
  | error e => rw [hd] at h; cases h

/-- A byte placed below the top of memory is the one read at its address. -/
theorem Memory.read_place_add {m : Memory} (hm : m.wf = true) {a k : Nat} {vs : List Byte} (hk : k < vs.length)
    (hle : a + k ≤ 255) : (m.place a vs).read (a + k) = vs[k] := by
  rw [read_place a (a + k) vs hm hle, if_pos (Nat.le_add_right a k), Nat.add_sub_cancel_left,
    List.getElem?_eq_getElem hk, Option.getD_some]

/-- Settles O6: the three bytes placed from the pc are the three that the fetch reads. -/
theorem placedWordIsFetched : Obligations.PlacedWordIsFetched := by
  intro s nbits w i hm hp h
  have hread (k : Nat) (hk : k < 3) :
      (s.withFetchWord nbits w).mem.read (s.pc.toNat + k) = (tableWindow nbits w)[k] :=
    Memory.read_place_add hm hk (by omega)
  exact ⟨_, _, _, rfl, decodeTableWord_eq_some h, rfl, hp,
    hread 0 (by decide), hread 1 (by decide), hread 2 (by decide)⟩

/-! ### The loader -/

theorem hostLoad_refused {image : List Byte} (h : s.status = .running ∨ 256 < image.length) :
    hostLoad image s = s := by
  rw [hostLoad]
  rcases h with hr | hlong
  · rw [if_pos hr]
  · rw [if_pos hlong, ite_self]

theorem hostLoad_mem {image : List Byte} (hr : s.status ≠ .running) (hlen : image.length ≤ 256) :
    (hostLoad image s).mem = s.mem.place 0 image := by
  rw [hostLoad, if_neg hr, if_neg (Nat.not_lt.2 hlen)]

/-- Settles O38: an accepted load places the image from address 0, and a refused one is the identity. -/
theorem loaderContract : Obligations.LoaderContract := by
  refine ⟨?accepted, fun image s => hostLoad_refused⟩
  intro image s hm hr hlen
  rw [hostLoad_mem hr hlen]
  refine ⟨hostLoad_mem hr hlen ▸ hostLoad_rest image s, fun k hk => ?written, fun addr haddr => ?kept⟩
  case written =>
    have h := Memory.read_place_add hm (a := 0) hk (by omega)
    rwa [Nat.zero_add] at h
  case kept =>
    have hle : addr.toNat ≤ 255 := Nat.le_of_lt_succ addr.isLt
    rw [Memory.read_place 0 _ image hm hle, if_pos (Nat.zero_le _), Nat.sub_zero, List.getElem?_eq_none haddr,
      Option.getD_none]

/-! ### Image tokens -/

/-- The character of a binary digit. -/
def charOfBit (bit : Bool) : Char := if bit then '1' else '0'

theorem bitOfChar?_charOfBit (bit : Bool) : bitOfChar? (charOfBit bit) = some bit := by
  cases bit <;> rfl

theorem mapM_bitOfChar?_charOfBit (bits : List Bool) : (bits.map charOfBit).mapM bitOfChar? = some bits := by
  induction bits with
  | nil => rfl
  | cons bit bits ih => simp [bitOfChar?_charOfBit, ih]

theorem mapM_bitOfChar?_eq_none {token : List Char} {c : Char} (hc : c ∈ token) (h : bitOfChar? c = none) :
    token.mapM bitOfChar? = none := by
  induction token with
  | nil => cases hc
  | cons d token ih =>
    rw [List.mapM_cons]
    rcases List.mem_cons.1 hc with rfl | hc
    · rw [h]; rfl
    · rw [ih hc]
      cases bitOfChar? d <;> rfl

/-- Reading the low `n` bits of `x`, bit `n - 1` first, after the digits of `acc` appends them to `acc`. -/
theorem foldl_testBit (x n acc : Nat) :
    ((List.range n).reverse.map x.testBit).foldl (fun m bit => 2 * m + bit.toNat) acc = acc * 2 ^ n + x % 2 ^ n := by
  induction n generalizing acc with
  | zero => simp [Nat.mod_one]
  | succ n ih =>
    rw [List.range_succ, List.reverse_append, List.reverse_singleton, List.singleton_append, List.map_cons,
      List.foldl_cons, ih, Nat.mod_pow_succ, Nat.toNat_testBit]
    ring

theorem numberOfBits_byte (v : Byte) : numberOfBits ([7, 6, 5, 4, 3, 2, 1, 0].map v.getLsbD) = v.toNat := by
  have h := foldl_testBit v.toNat 8 0
  rwa [Nat.zero_mul, Nat.zero_add, Nat.mod_eq_of_lt v.isLt] at h

/-- Settles O39: the 8 digits are read back as the byte's bits, and those spell its number. -/
theorem imageTokenIsMsbFirst : Obligations.ImageTokenIsMsbFirst := by
  refine ⟨?digits, fun token hlen => if_neg hlen, ?other_character⟩
  case digits =>
    intro v
    have hbits := mapM_bitOfChar?_charOfBit ([7, 6, 5, 4, 3, 2, 1, 0].map v.getLsbD)
    rw [List.map_map] at hbits
    change byteOfToken? ([7, 6, 5, 4, 3, 2, 1, 0].map (charOfBit ∘ v.getLsbD)) = some v
    rw [byteOfToken?, if_pos (by rfl), hbits, Option.map_some, numberOfBits_byte, BitVec.ofNat_toNat,
      BitVec.setWidth_eq]
  case other_character =>
    intro token c hc h0 h1
    have hdigit : bitOfChar? c = none := by rw [bitOfChar?, if_neg h0, if_neg h1]
    rw [byteOfToken?, mapM_bitOfChar?_eq_none hc hdigit, Option.map_none, ite_self]

/-! ### What the host reads -/

/-- Settles O40: each read is guarded by `status` alone. -/
theorem hostPortReads : Obligations.HostPortReads := by
  refine ⟨fun s r addr hr => ?answered, fun s r addr hr => ?unanswered, rfl, rfl, rfl⟩
  case answered => exact ⟨if_neg hr, if_neg hr, if_neg hr, if_neg hr⟩
  case unanswered => exact ⟨if_pos hr, if_pos hr, if_pos hr, if_pos hr⟩

end Sys2Proof.Machine
end

section
/-! SUPPORT. Frames (10_state.md R15, R20; 20_memory.md R27; 40_dispatch.md R52): which registers an instruction can
write, and that the latches and the counter are no instruction's to change. -/

namespace Sys2Proof.Machine

open Sys2Proof.Claims

variable {i : Instr} {s t : State}

/-! ### A fault by an operand -/

theorem OperandFault.regs (h : OperandFault s t) : t.regs = s.regs := by rw [h.rest]

theorem OperandFault.latch (h : OperandFault s t) : t.latch = s.latch := by rw [h.rest]

theorem OperandFault.freeIndex (h : OperandFault s t) : t.freeIndex = s.freeIndex := by rw [h.rest]

/-! ### Registers -/

/-- The registers an instruction can write: x[A], SP, or both (R67, R71, R72, R78 to R81). -/
def WritesReg (i : Instr) (r : RegIdx) : Prop :=
  match i with
  | .ldi a _ => r.val = a.toNat
  | .add a _ => r.val = a.toNat
  | .mul a _ => r.val = a.toNat
  | .push _ => r = Config.spIndex
  | .call _ => r = Config.spIndex
  | .ret => r = Config.spIndex
  | .pop a => r = Config.spIndex ∨ r.val = a.toNat
  | .hlt | .prn _ | .cmp _ _ | .jmp _ | .jeq _ | .jne _ => False

theorem regs_writeReg_other {r q : RegIdx} (v : Byte) (h : q.val ≠ r.val) : (s.writeReg r v).regs[q] = s.regs[q] :=
  State.readReg_writeReg_other s v (Fin.ne_of_val_ne h)

/-- A register the instruction does not write keeps its value. -/
theorem exec_regs {r : RegIdx} (h : exec i s = .next t) (hr : ¬ WritesReg i r) : t.regs[r] = s.regs[r] := by
  cases i with
  | hlt => rcases execHlt_next h with ⟨_, rfl⟩ | h; exacts [rfl, by rw [h.regs]]
  | ldi a v => rcases execLdi_next h with ⟨_, _, rfl⟩ | h; exacts [regs_writeReg_other _ hr, by rw [h.regs]]
  | prn a => rcases execPrn_next h with ⟨_, _, rfl⟩ | h; exacts [rfl, by rw [h.regs]]
  | add a b => rcases execAdd_next h with ⟨_, _, _, rfl⟩ | h; exacts [regs_writeReg_other _ hr, by rw [h.regs]]
  | mul a b => rcases execMul_next h with ⟨_, _, _, rfl⟩ | h; exacts [regs_writeReg_other _ hr, by rw [h.regs]]
  | cmp a b => rcases execCmp_next h with ⟨_, _, _, rfl⟩ | h; exacts [rfl, by rw [h.regs]]
  | push a => rcases execPush_next h with ⟨_, _, rfl⟩ | h; exacts [s.readReg_decSp hr, by rw [h.regs]]
  | pop a =>
    obtain ⟨hsp, ha⟩ := not_or.1 hr
    rcases execPop_next h with ⟨_, _, rfl⟩ | h
    · exact (State.readReg_incSp _ hsp).trans (regs_writeReg_other _ ha)
    · rw [h.regs]
  | call a => rcases execCall_next h with ⟨_, rfl⟩ | h; exacts [s.readReg_decSp hr, by rw [h.regs]]
  | ret => rw [execRet_next h]; exact State.readReg_incSp _ hr
  | jmp a => rcases execJmp_next h with ⟨_, rfl⟩ | h; exacts [rfl, by rw [h.regs]]
  | jeq a => rcases jumpIf_next h with ⟨_, _, rfl⟩ | ⟨_, _, rfl⟩ | h; exacts [rfl, rfl, by rw [h.regs]]
  | jne a => rcases jumpIf_next h with ⟨_, _, rfl⟩ | ⟨_, _, rfl⟩ | h; exacts [rfl, rfl, by rw [h.regs]]

/-- An instruction that writes no register keeps the whole file. -/
theorem exec_regs_eq (h : exec i s = .next t) (hi : ∀ r, ¬ WritesReg i r) : t.regs = s.regs :=
  Vector.ext fun k hk => exec_regs h (hi ⟨k, hk⟩)

/-! ### Hidden state, memory -/

/-- The latches and the model's counter are the cycle's alone (R26). -/
theorem exec_hidden (h : exec i s = .next t) : t.latch = s.latch ∧ t.freeIndex = s.freeIndex := by
  cases i with
  | hlt => rcases execHlt_next h with ⟨_, rfl⟩ | h; exacts [⟨rfl, rfl⟩, ⟨h.latch, h.freeIndex⟩]
  | ldi a v => rcases execLdi_next h with ⟨_, _, rfl⟩ | h; exacts [⟨rfl, rfl⟩, ⟨h.latch, h.freeIndex⟩]
  | prn a => rcases execPrn_next h with ⟨_, _, rfl⟩ | h; exacts [⟨rfl, rfl⟩, ⟨h.latch, h.freeIndex⟩]
  | add a b => rcases execAdd_next h with ⟨_, _, _, rfl⟩ | h; exacts [⟨rfl, rfl⟩, ⟨h.latch, h.freeIndex⟩]
  | mul a b => rcases execMul_next h with ⟨_, _, _, rfl⟩ | h; exacts [⟨rfl, rfl⟩, ⟨h.latch, h.freeIndex⟩]
  | cmp a b => rcases execCmp_next h with ⟨_, _, _, rfl⟩ | h; exacts [⟨rfl, rfl⟩, ⟨h.latch, h.freeIndex⟩]
  | push a => rcases execPush_next h with ⟨_, _, rfl⟩ | h; exacts [⟨rfl, rfl⟩, ⟨h.latch, h.freeIndex⟩]
  | pop a => rcases execPop_next h with ⟨_, _, rfl⟩ | h; exacts [⟨rfl, rfl⟩, ⟨h.latch, h.freeIndex⟩]
  | call a => rcases execCall_next h with ⟨_, rfl⟩ | h; exacts [⟨rfl, rfl⟩, ⟨h.latch, h.freeIndex⟩]
  | ret => rw [execRet_next h]; exact ⟨rfl, rfl⟩
  | jmp a => rcases execJmp_next h with ⟨_, rfl⟩ | h; exacts [⟨rfl, rfl⟩, ⟨h.latch, h.freeIndex⟩]
  | jeq a =>
    rcases jumpIf_next h with ⟨_, _, rfl⟩ | ⟨_, _, rfl⟩ | h
    exacts [⟨rfl, rfl⟩, ⟨rfl, rfl⟩, ⟨h.latch, h.freeIndex⟩]
  | jne a =>
    rcases jumpIf_next h with ⟨_, _, rfl⟩ | ⟨_, _, rfl⟩ | h
    exacts [⟨rfl, rfl⟩, ⟨rfl, rfl⟩, ⟨h.latch, h.freeIndex⟩]

/-- Every byte but the one below SP reads as before, whatever the instruction (R24, R27). -/
theorem exec_mem_read (h : exec i s = .next t) (hm : s.mem.wf = true) {addr : Byte} (ha : addr ≠ s.regs[7] - 1) :
    t.mem.read addr.toNat = s.mem.read addr.toNat := by
  by_cases hw : ∃ a, i = .push a ∨ i = .call a
  · obtain ⟨a, rfl | rfl⟩ := hw
    · rcases execPush_next h with ⟨_, _, rfl⟩ | h
      · rw [State.setPc_mem, State.read_push hm, if_neg ha]
      · rw [h.mem]
    · rcases execCall_next h with ⟨_, rfl⟩ | h
      · rw [State.setPc_mem, State.read_push hm, if_neg ha]
      · rw [h.mem]
  · rw [exec_mem h (fun a ha => hw ⟨a, .inl ha⟩) (fun a ha => hw ⟨a, .inr ha⟩)]

theorem exec_keepsMemory (h : exec i s = .next t) (hpush : ∀ a, i ≠ .push a) (hcall : ∀ a, i ≠ .call a) :
    KeepsMemory s t := by
  intro addr
  rw [exec_mem h hpush hcall]

/-- HLT, PRN and CMP are the instructions that change `status`, the output or the flags without a fault. -/
theorem exec_keepsFlagsOutputAndStatus (h : exec i s = .next t) (hhlt : i ≠ .hlt) (hprn : ∀ a, i ≠ .prn a)
    (hcmp : ∀ a b, i ≠ .cmp a b) : KeepsFlagsOutputAndStatus s t := by
  obtain ⟨hlatch, hfree⟩ := exec_hidden h
  refine ⟨exec_flags h hcmp, exec_output h hprn, hlatch, hfree, ?_⟩
  rcases exec_status h with hf | ⟨hrecord, hstatus | ⟨hi, -⟩⟩
  · exact .inl hf.status
  · exact .inr ⟨hstatus, hrecord⟩
  · exact absurd hi hhlt

/-! ### The statements -/

/-- Settles O41: x[A] is the one register these can write. -/
theorem frameOfRegisterWriters : Obligations.FrameOfRegisterWriters := by
  rintro i a s t (⟨v, rfl⟩ | ⟨b, rfl⟩ | ⟨b, rfl⟩) h
  all_goals
    exact ⟨fun r hr => exec_regs h hr, exec_keepsMemory h nofun nofun,
      exec_keepsFlagsOutputAndStatus h nofun nofun nofun⟩

/-- Settles O42: these write no register, and each piece of the rest is written by one of them. -/
theorem frameOfRegisterReaders : Obligations.FrameOfRegisterReaders := by
  intro i a b s t hi h
  have hregs : ∀ r, ¬ WritesReg i r := by rcases hi with rfl | rfl | rfl | rfl | rfl | rfl <;> exact fun _ => id
  have hmem : KeepsMemory s t := by
    rcases hi with rfl | rfl | rfl | rfl | rfl | rfl <;> exact exec_keepsMemory h nofun nofun
  obtain ⟨hlatch, hfree⟩ := exec_hidden h
  refine ⟨exec_regs_eq h hregs, hmem, hlatch, hfree, fun hcmp => exec_flags h ?not_cmp,
    fun hprn => exec_output h ?not_prn, ?status⟩
  case not_cmp =>
    rintro x y rfl
    exact hcmp (by simpa using hi)
  case not_prn =>
    rintro x rfl
    exact hprn (by simpa using hi)
  case status =>
    rcases exec_cases h with ⟨k, n, -, rfl⟩ | ⟨-, -, hrecord, hstatus⟩
    · exact .inl rfl
    · exact .inr ⟨hrecord, hstatus⟩

/-- Settles O43: SP is the one register these can write, and the byte below it the one address. -/
theorem frameOfPushAndCall : Obligations.FrameOfPushAndCall := by
  intro i a s t hi hm h
  refine ⟨fun r hr => exec_regs h ?other_register, ?rest, ?other_address⟩
  case other_register => rcases hi with rfl | rfl <;> exact hr
  case rest => rcases hi with rfl | rfl <;> exact exec_keepsFlagsOutputAndStatus h nofun nofun nofun
  case other_address =>
    rintro slot rfl addr ha
    rw [State.sp_decSp_eq] at ha
    exact exec_mem_read h hm ha

/-- Settles O44: SP and POP's x[A] are the registers these can write. -/
theorem frameOfPopAndRet : Obligations.FrameOfPopAndRet := by
  rintro i a s t (rfl | rfl) h
  · exact ⟨fun r hsp ha => exec_regs h (not_or.2 ⟨hsp, ha rfl⟩), exec_keepsMemory h nofun nofun,
      exec_keepsFlagsOutputAndStatus h nofun nofun nofun⟩
  · exact ⟨fun r hsp _ => exec_regs h hsp, exec_keepsMemory h nofun nofun,
      exec_keepsFlagsOutputAndStatus h nofun nofun nofun⟩

end Sys2Proof.Machine
end

section
/-! SUPPORT. Steps (40_dispatch.md R55, R56, R61; 60_exceptions.md R87): every step answers a next state, and
that state is the same one, a fault with a legal record, or what a completed instruction left. -/

namespace Sys2Proof.Machine

open Sys2Proof.Claims

variable {i : Instr} {s t u : State} {op a b : Byte}

/-! ### A fetched instruction -/

/-- Inside memory the window latched is the window of the statement. -/
theorem fetched_of_fetches (h : Fetches s op a b) : s.fetched = { s with latch := { op := op, a := a, b := b } } := by
  obtain ⟨-, hp, rfl, rfl, rfl⟩ := h
  rw [State.fetched, memRead_pc_one hp, memRead_pc_two hp]
  rfl

theorem step_of_fetches (h : Fetches s op a b) (hd : decodeWindow op a b = .ok i) :
    step s = andThen (exec i s.fetched) State.releaseLatches := by
  obtain ⟨hr, hp, rfl, rfl, rfl⟩ := h
  rw [← memRead_pc_one hp, ← memRead_pc_two hp] at hd
  exact step_decoded hr hp hd

/-- Settles O5: fetch latches the window, dispatch finds the instruction, and the release is the claim's function. -/
theorem stepRunsDecodedInstruction : Obligations.StepRunsDecodedInstruction := by
  intro s op a b i hf hd
  rw [step_of_fetches hf hd, fetched_of_fetches hf]
  rfl

/-- Settles O34: outside Running the step is idle. -/
theorem noStepOutsideRunning : Obligations.NoStepOutsideRunning :=
  fun _ h => ⟨step_idle h, stepTransactions_idle h⟩

/-! ### A next state -/

theorem Answers.next {done : State → Prop} {c : Option (FaultSubkind × Nat)} {o : Result} (h : Answers s done c o) :
    ∃ t, o = .next t := by
  cases h with
  | fault k n => exact ⟨_, rfl⟩
  | completed h => exact ⟨_, rfl⟩

theorem exec_total (i : Instr) (s : State) : ∃ t, exec i s = .next t := (exec_answers i s).next

theorem step_total (s : State) : ∃ t, step s = .next t := by
  by_cases hr : s.status = .running
  · by_cases hp : s.pc.toNat ≤ 253
    · cases hd : decodeWindow (s.memRead s.pc) (s.memRead (s.pc + 1)) (s.memRead (s.pc + 2)) with
      | ok i =>
        obtain ⟨u, hu⟩ := exec_total i s.fetched
        exact ⟨u.releaseLatches, by rw [step_decoded hr hp hd, hu]; rfl⟩
      | error e => exact ⟨_, step_unlisted hr hp hd⟩
    · exact ⟨_, step_outside_eq hr (Nat.lt_of_not_le hp)⟩
  · exact ⟨s, step_idle hr⟩

/-- Settles O35: the checks of an instruction and the faults of the cycle all answer next states. -/
theorem everyStepAnswersNextState : Obligations.EveryStepAnswersNextState := ⟨step_total, exec_total⟩

/-! ### The fault records a step writes (R87) -/

theorem legal_empty (pc : Byte) : FaultRecord.empty.legal pc :=
  ⟨fun _ => rfl, (absurd rfl ·), nofun, nofun, nofun, nofun⟩

theorem legal_unsupportedInstruction (s : State) :
    (s.faulted .unsupportedInstruction .address s.latch.op.toNat).faultRecord.legal s.pc :=
  ⟨nofun, fun _ => rfl, nofun,
    fun _ => ⟨rfl, faulted_info_toNat s _ _ (s.latch.op.isLt.trans (by decide))⟩, nofun, nofun⟩

theorem legal_outOfRange_address (s : State) : (s.faulted .outOfRange .address 256).faultRecord.legal s.pc :=
  ⟨nofun, fun _ => rfl, nofun, nofun, fun _ _ => rfl, nofun⟩

theorem legal_outOfRange_register (s : State) {f : Byte} (hf : 7 < f.toNat) :
    (s.faulted .outOfRange .register f.toNat).faultRecord.legal s.pc := by
  have hinfo := faulted_info_toNat s .outOfRange .register (f.isLt.trans (by decide))
  exact ⟨nofun, fun _ => rfl, nofun, nofun, nofun, fun _ _ => by rw [hinfo]; exact ⟨hf, Nat.le_of_lt_succ f.isLt⟩⟩

/-- Once the fetch has passed, the only sequential pc over 255 is 256 (R60). -/
theorem OperandFault.legal (h : OperandFault s t) (hp : s.pc.toNat ≤ 253) : t.faultRecord.legal s.pc := by
  rcases h with ⟨f, hf, rfl⟩ | ⟨w, hw, hover, rfl⟩
  · exact legal_outOfRange_register s hf
  · rw [show s.pc.toNat + w = 256 by omega]
    exact legal_outOfRange_address s

/-! ### What one step can do, as a program and the host see it -/

/-- A step is idle, or it faults and changes `status`, a legal record and hidden state only (R64), or it completes an
instruction, which keeps the record and is Running again but for HLT. -/
inductive StepOutcome (s : State) : State → Prop
  | idle (hr : s.status ≠ .running) : StepOutcome s s
  | fault {t : State} (hr : s.status = .running)
      (ht : t = { s with status := .faulted, faultRecord := t.faultRecord, latch := t.latch, freeIndex := t.freeIndex })
      (hcause : t.faultRecord.cause ≠ .none) (hlegal : t.faultRecord.legal s.pc) : StepOutcome s t
  | completed {i : Instr} {u : State} (hr : s.status = .running) (hp : s.pc.toNat ≤ 253)
      (hd : decodeWindow (s.memRead s.pc) (s.memRead (s.pc + 1)) (s.memRead (s.pc + 2)) = .ok i)
      (hu : exec i s.fetched = .next u) (hrecord : u.faultRecord = s.faultRecord)
      (hstatus : u.status = .running ∨ i = .hlt ∧ u.status = .halted ∧ u.pc = s.pc + 1) :
      StepOutcome s u.releaseLatches

theorem step_outcome (h : step s = .next t) : StepOutcome s t := by
  rcases step_cases h with ⟨hr, rfl⟩ | ⟨hr, _, latch, _, rfl⟩ | ⟨hr, _, _, rfl⟩ | ⟨hr, hp, i, u, hd, hu, rfl⟩
  · exact .idle hr
  · exact .fault hr rfl nofun (legal_outOfRange_address _)
  · exact .fault hr rfl nofun (legal_unsupportedInstruction s.fetched)
  · rcases exec_status hu with hf | ⟨hrecord, hstatus⟩
    · refine .fault hr ?_ (by rw [State.releaseLatches_faultRecord, hf.cause]; decide) (hf.legal hp)
      rw [hf.rest, hf.status]
      rfl
    · exact .completed hr hp hd hu hrecord (hstatus.imp_left fun h => h.trans hr)

/-- What a completed instruction leaves is no fault. -/
theorem ne_faulted_of_completed (h : u.status = .running ∨ i = .hlt ∧ u.status = .halted ∧ u.pc = s.pc + 1) :
    u.status ≠ .faulted := by
  rcases h with h | ⟨-, h, -⟩ <;> rw [h] <;> decide

end Sys2Proof.Machine
end

section
/-! SUPPORT. What a step does to memory, to the output and to the run (20_memory.md R27; 40_dispatch.md R52, R54, R65):
one case per outcome of the step. -/

namespace Sys2Proof.Machine

open Sys2Proof.Claims

variable {i : Instr} {s t : State} {a : Byte}

/-! ### Who writes memory and the output -/

theorem not_pushOrCall_of_opcode (h45 : i.opcode ≠ 0x45) (h50 : i.opcode ≠ 0x50) :
    (∀ a, i ≠ .push a) ∧ ∀ a, i ≠ .call a := by
  constructor
  · rintro a rfl
    exact h45 rfl
  · rintro a rfl
    exact h50 rfl

theorem not_prn_of_opcode (h47 : i.opcode ≠ 0x47) : ∀ a, i ≠ .prn a := by
  rintro a rfl
  exact h47 rfl

/-- Settles O46: a completed instruction writes memory if it is PUSH or CALL, and nothing else a step can do does. -/
theorem onlyPushAndCallWriteMemory : Obligations.OnlyPushAndCallWriteMemory := by
  refine ⟨fun s t h hpush hcall => ?other_opcode, fun s t hm h addr ha => ?other_address⟩
  case other_opcode =>
    cases step_outcome h with
    | idle => rfl
    | fault _ ht => rw [ht]
    | completed _ _ hd hu =>
      obtain ⟨hop, -⟩ := decodeWindow_ok hd
      obtain ⟨hnp, hnc⟩ := not_pushOrCall_of_opcode (hop.trans_ne hpush) (hop.trans_ne hcall)
      exact (exec_mem hu hnp hnc :)
  case other_address =>
    cases step_outcome h with
    | idle => rfl
    | fault _ ht => rw [ht]
    | completed _ _ _ hu => exact (exec_mem_read hu hm ha :)

theorem exec_prn_output (h : exec (.prn a) s = .next t) (hf : t.status ≠ .faulted) :
    t.output = s.output ++ [fieldValue s a] := by
  rcases execPrn_next h with ⟨ha, _, rfl⟩ | hfault
  · rw [fieldValue_legal ha]
    rfl
  · exact absurd hfault.status hf

/-- Settles O47: a completed PRN emits x[A], and no other step emits. -/
theorem oneEmitPerPrn : Obligations.OneEmitPerPrn := by
  refine ⟨fun s t hr h hop hf => ?emits, fun s t h hno => ?silent⟩
  case emits =>
    cases step_outcome h with
    | idle hnr => exact absurd hr hnr
    | fault _ ht => exact absurd (by rw [ht]) hf
    | completed _ hp hd hu =>
      rw [show s.memRead s.pc = 0x47 from hop] at hd
      obtain rfl := Except.ok.inj hd
      have houtput := exec_prn_output hu hf
      rwa [memRead_pc_one hp] at houtput
  case silent =>
    cases step_outcome h with
    | idle => rfl
    | fault _ ht => rw [ht]
    | completed hr _ hd hu _ hstatus =>
      have hop : s.memRead s.pc ≠ 0x47 := by
        rcases hno with hop | hf | hnr
        · exact hop
        · exact absurd hf (ne_faulted_of_completed hstatus)
        · exact absurd hr hnr
      obtain ⟨hi, -⟩ := decodeWindow_ok hd
      exact (exec_output hu (not_prn_of_opcode (hi.trans_ne hop)) :)

/-! ### Transactions (R54) -/

theorem memAfter_append (ts ts' : List Transaction) (m : Memory) :
    memAfter (ts ++ ts') m = memAfter ts' (memAfter ts m) := by
  induction ts generalizing m with
  | nil => rfl
  | cons x ts ih => cases x <;> exact ih _

theorem emitted_append (ts ts' : List Transaction) : emitted (ts ++ ts') = emitted ts ++ emitted ts' := by
  induction ts with
  | nil => rfl
  | cons x ts ih =>
    cases x with
    | emit v => exact congrArg (v :: ·) ih
    | _ => exact ih

/-- Reads change nothing (R28). -/
theorem memAfter_reads {α : Type} (f : α → Byte) (as : List α) (m : Memory) :
    memAfter (as.map fun x => .memRead (f x)) m = m := by
  induction as with
  | nil => rfl
  | cons x as ih => exact ih

theorem emitted_reads {α : Type} (f : α → Byte) (as : List α) : emitted (as.map fun x => .memRead (f x)) = [] := by
  induction as with
  | nil => rfl
  | cons x as ih => exact ih

@[simp] theorem memAfter_fetchTransactions (s : State) (m : Memory) : memAfter (fetchTransactions s) m = m :=
  memAfter_reads _ _ m

@[simp] theorem emitted_fetchTransactions (s : State) : emitted (fetchTransactions s) = [] := emitted_reads _ _

/-- Releasing the latches keeps `status`, so the transactions' test is whether the step faulted. -/
theorem isFaulted_fetchWindow (hr : s.status = .running) (h : step s = .next t) :
    isFaulted (fetchWindow s dispatch) = decide (t.status = .faulted) := by
  rw [step_running hr] at h
  obtain ⟨u, hu, rfl⟩ := andThen_next h
  rw [hu]
  rfl

theorem stepTransactions_faulted (hr : s.status = .running) (h : step s = .next t) (hf : t.status = .faulted) :
    stepTransactions s = fetchTransactions s := by
  rw [stepTransactions, if_neg (not_not_intro hr), isFaulted_fetchWindow hr h, if_pos (decide_eq_true hf)]

theorem stepTransactions_completed (hr : s.status = .running) (h : step s = .next t) (hf : t.status ≠ .faulted)
    (hd : decodeWindow (s.memRead s.pc) (s.memRead (s.pc + 1)) (s.memRead (s.pc + 2)) = .ok i) :
    stepTransactions s = fetchTransactions s ++ bodyTransactions i s := by
  rw [stepTransactions, if_neg (not_not_intro hr), isFaulted_fetchWindow hr h, if_neg (by simpa using hf), hd]

/-- The transactions of an instruction do not read the latches. -/
theorem bodyTransactions_fetched (i : Instr) (s : State) : bodyTransactions i s.fetched = bodyTransactions i s := by
  cases i <;> rfl

theorem bodyTransactions_prn (ha : a.toNat < 8) :
    bodyTransactions (.prn a) s = [.emit (s.readReg (fieldReg a ha))] := by
  rw [bodyTransactions, regIndex?_legal ha]; rfl

theorem bodyTransactions_push (ha : a.toNat < 8) :
    bodyTransactions (.push a) s = [.memWrite s.decSp.sp (s.decSp.readReg (fieldReg a ha))] := by
  rw [bodyTransactions, regIndex?_legal ha]; rfl

/-- PRN's transaction is its emit, PUSH's and CALL's their store, and no other instruction has one that writes. -/
theorem exec_bodyTransactions (h : exec i s = .next t) (hf : t.status ≠ .faulted) :
    t.mem = memAfter (bodyTransactions i s) s.mem ∧ t.output = s.output ++ emitted (bodyTransactions i s) := by
  cases i with
  | prn a =>
    rcases execPrn_next h with ⟨ha, _, rfl⟩ | h
    · rw [bodyTransactions_prn ha]; exact ⟨rfl, rfl⟩
    · exact absurd h.status hf
  | push a =>
    rcases execPush_next h with ⟨ha, _, rfl⟩ | h
    · rw [bodyTransactions_push ha]; exact ⟨rfl, (List.append_nil _).symm⟩
    · exact absurd h.status hf
  | call a =>
    rcases execCall_next h with ⟨ha, rfl⟩ | h
    · exact ⟨rfl, (List.append_nil _).symm⟩
    · exact absurd h.status hf
  | _ => exact ⟨exec_mem h nofun nofun, (exec_output h nofun).trans (List.append_nil _).symm⟩

/-- Settles O48: the fetch's reads write nothing, and the instruction's transactions follow them. -/
theorem transactionsAccountForStep : Obligations.TransactionsAccountForStep := by
  intro s t h
  cases step_outcome h with
  | idle hr =>
    rw [stepTransactions_idle hr]
    exact ⟨rfl, (List.append_nil _).symm⟩
  | fault hr ht =>
    rw [stepTransactions_faulted hr h (by rw [ht]), memAfter_fetchTransactions, emitted_fetchTransactions, ht]
    exact ⟨rfl, (List.append_nil _).symm⟩
  | completed hr _ hd hu _ hstatus =>
    have hf := ne_faulted_of_completed hstatus
    rw [stepTransactions_completed hr h hf hd, memAfter_append, emitted_append, memAfter_fetchTransactions,
      emitted_fetchTransactions, ← bodyTransactions_fetched]
    exact (exec_bodyTransactions hu hf :)

/-! ### The end of a run (R65) -/

/-- Settles O49: a completed instruction other than HLT stays Running. -/
theorem runEndsByHltOrFault : Obligations.RunEndsByHltOrFault := by
  refine ⟨fun s t hr h hstop => ?ends, fun s a b hf => ?hlt_ends⟩
  case ends =>
    cases step_outcome h with
    | idle hnr => exact absurd hr hnr
    | fault _ ht => exact .inr (by rw [ht])
    | completed _ _ hd _ _ hstatus =>
      rcases hstatus with hrun | ⟨rfl, hhalted, hpc⟩
      · exact absurd hrun hstop
      · obtain ⟨hop, -⟩ := decodeWindow_ok hd
        exact .inl ⟨hhalted, hop.symm, hpc⟩
  case hlt_ends =>
    have ⟨_, hpc, _⟩ := hf
    have hp : s.pc.toNat + 1 ≤ 255 := by omega
    exact ⟨_, by rw [step_of_fetches (i := .hlt) hf rfl, exec_hlt_completes (s := s.fetched) hp]; rfl, rfl⟩

end Sys2Proof.Machine
end

section
/-! SUPPORT. Pairs on the stack (43_stack.md R79, R81; 20_memory.md R35): a pop reads what a push stored and gives SP
back, and a PUSH over its own operand byte. -/

namespace Sys2Proof.Machine

open Sys2Proof.Claims

variable {a b : Byte} {s : State}

/-! ### A push and what reads it -/

/-- The byte at SP after a push is the value pushed (R75). -/
theorem read_push_slot (hm : s.mem.wf = true) (value : State → Byte) :
    (s.push value).mem.read (s.push value).regs[7].toNat = value s.decSp := by
  rw [State.push_regs_seven, State.read_push hm, if_pos rfl]

/-- Incrementing SP after a push gives the register file back. -/
theorem push_regs_set_seven (s : State) (value : State → Byte) :
    (s.push value).regs.set 7 ((s.push value).regs[7] + 1) = s.regs := by
  rw [State.push_regs_seven, BitVec.sub_add_cancel, State.push_eq, Vector.set_set, Vector.set_getElem_self]

/-- A pop into a register other than SP writes it and increments SP, in either order (R76). -/
theorem regs_pop_writeReg {r : RegIdx} (hr : r.val ≠ 7) (s : State) :
    (s.pop (State.writeReg · r)).regs = (s.regs.set 7 (s.regs[7] + 1)).set r (s.mem.read s.regs[7].toNat) := by
  rw [State.pop_eq, State.writeReg_regs, Vector.getElem_set_ne _ _ hr, Vector.set_comm _ _ hr]

/-- Settles O20: the pop reads the byte the push stored, and its increment undoes the decrement. -/
theorem pushThenPopCopies : Obligations.PushThenPopCopies := by
  intro a b s ha hb hm hp
  have hnext : (s.pc + 2).toNat ≤ 253 := by bv_omega
  refine ⟨_, _, exec_push_completes ha (by omega), exec_pop_completes (hb.trans (by decide)) hnext, ?regs, ?pc, rfl⟩
  case regs =>
    rw [State.setPc_regs, regs_pop_writeReg hb.ne, State.setPc_regs, State.setPc_mem, push_regs_set_seven,
      read_push_slot hm, State.readReg_decSp_eq]
    rfl
  case pc => exact BitVec.add_assoc s.pc 2 2

/-- Settles O21: RET loads the return address CALL stored, and its increment undoes the decrement. -/
theorem callThenRetReturns : Obligations.CallThenRetReturns := by
  intro a s ha hm _
  obtain ⟨-, ret, -⟩ := retPopsPc
  refine ⟨_, _, exec_call_completes ha, ret _, ?_⟩
  rw [State.setPc_regs, State.setPc_mem, push_regs_set_seven, read_push_slot hm, returnAddress_eq, ofNat_toNat_add]
  rfl

/-! ### A PUSH over its own operand byte -/

/-- A fetched PUSH completes with the effect of its meaning, whatever the store overwrites (R35, R78). -/
theorem step_push (ha : a.toNat < 8) (hm : s.mem.wf = true) (hf : Fetches s 0x45 a b) :
    ∃ t, step s = .next t ∧ t.status = .running ∧ t.pc = s.pc + 2 ∧ t.regs[7] = s.regs[7] - 1 ∧
      ∀ addr : Byte, t.mem.read addr.toNat =
        if addr = s.regs[7] - 1 then (s.regs.set 7 (s.regs[7] - 1))[a.toNat] else s.mem.read addr.toNat := by
  have ⟨hr, hp, _⟩ := hf
  obtain ⟨-, completes, -⟩ := pushStoresRegister
  obtain ⟨u, hu, hrest, hread⟩ := completes a s.fetched ha hm hp
  refine ⟨u.releaseLatches, by rw [step_of_fetches (i := .push a) hf rfl, hu]; rfl, ?status, ?pc, ?sp, hread⟩
  case status => rw [State.releaseLatches_status, hrest]; exact hr
  case pc => rw [State.releaseLatches_pc, hrest]; rfl
  case sp => rw [State.releaseLatches_regs, hrest]; exact Vector.getElem_set_self (by decide)

/-- Settles O50: the window is latched before the store, and the store at `pc + 1` leaves the opcode byte alone. -/
theorem pushOverOwnOperandCompletes : Obligations.PushOverOwnOperandCompletes := by
  intro s a b ha hm hf hsp
  have ⟨_, hp, hop, _, _⟩ := hf
  have hslot : s.regs[7] - 1 = s.pc + 1 := by rw [hsp]; bv_omega
  have hslot_toNat : (s.pc + 1).toNat = s.pc.toNat + 1 := by bv_omega
  have hne : s.pc ≠ s.pc + 1 := by bv_omega
  obtain ⟨t, hstep, hstatus, hpc, hregs, hread⟩ := step_push ha hm hf
  simp only [hslot] at hregs hread
  refine ⟨t, hstep, hstatus, hpc, hregs, ?operand, ?opcode⟩
  case operand => rw [← hslot_toNat, hread, if_pos rfl]
  case opcode => rw [hread, if_neg hne, hop]

end Sys2Proof.Machine
end

section
/-! SUPPORT. The invariant (60_exceptions.md R87, R91; 42_alu.md R73): it holds at reset, every step and every host event
keeps it, and so every reachable state meets it. -/

namespace Sys2Proof.Machine

open Sys2Proof.Claims

variable {i : Instr} {s t : State}

/-! ### Flags -/

/-- Under the Clear policy a comparison raises exactly one flag. -/
theorem compareFlags_clear_exclusive (x y : Byte) (old : Flags) : (compareFlags .clear x y old).exclusive := by
  simp only [compareFlags, Flags.exclusive, decide_eq_true_eq]
  omega

theorem exec_flags_exclusive (h : exec i s = .next t) (hx : s.flags.exclusive) : t.flags.exclusive := by
  by_cases hi : ∃ a b, i = .cmp a b
  · obtain ⟨a, b, rfl⟩ := hi
    rcases execCmp_next h with ⟨ha, hb, _, rfl⟩ | hf
    · exact compareFlags_clear_exclusive _ _ s.flags
    · rwa [hf.flags]
  · rw [exec_flags h fun a b hab => hi ⟨a, b, hab⟩]
    exact hx

/-! ### The invariant of a state without a fault -/

/-- Outside Faulted the record is empty, which is legal whatever the pc. -/
theorem faultRecord_of_inv (h : s.Inv) (hs : s.status ≠ .faulted) : s.faultRecord = .empty := by
  obtain ⟨-, -, hiff, hempty, -⟩ := h
  exact hempty (not_not.1 fun hcause => hs (hiff.2 hcause))

theorem inv_of_record_empty (hm : t.mem.wf = true) (hx : t.flags.exclusive) (hs : t.status ≠ .faulted)
    (hrecord : t.faultRecord = .empty) : t.Inv := by
  refine ⟨hm, hx, ?_, ?_⟩
  · rw [hrecord]
    exact iff_of_false hs (absurd rfl ·)
  · rw [hrecord]
    exact legal_empty t.pc

theorem flags_exclusive_reset : State.reset.flags.exclusive := by decide

/-- Settles O51: at reset memory is empty, no flag is set and the record is empty. -/
theorem resetMeetsInvariant : Obligations.ResetMeetsInvariant :=
  inv_of_record_empty Memory.wf_reset flags_exclusive_reset nofun rfl

/-! ### Steps and host events -/

/-- Settles O52: an idle step changes nothing, a fault writes a legal record, and a completed instruction keeps the
record and what the invariant says of memory and flags. -/
theorem stepKeepsInvariant : Obligations.StepKeepsInvariant := by
  intro s t hinv h
  have ⟨hm, hx, _, _⟩ := hinv
  cases step_outcome h with
  | idle => exact hinv
  | fault hr ht hcause hlegal =>
    rw [ht]
    exact ⟨hm, hx, iff_of_true rfl hcause, hlegal⟩
  | completed hr _ _ hu hrecord hstatus =>
    have hempty := faultRecord_of_inv hinv (by rw [hr]; decide)
    have hwf := exec_wf hu hm
    have hflags := exec_flags_exclusive hu hx
    exact inv_of_record_empty hwf hflags (ne_faulted_of_completed hstatus) (hrecord.trans hempty)

theorem inv_setStatus_running (h : s.Inv) (hs : s.status ≠ .faulted) : (s.setStatus .running).Inv := by
  have ⟨hm, hx, _, _⟩ := h
  have hempty := faultRecord_of_inv h hs
  exact inv_of_record_empty hm hx nofun hempty

theorem hostRun_inv (h : s.Inv) : (hostRun s).Inv := by
  cases hs : s.status with
  | ready => exact hostRun_ready hs ▸ inv_setStatus_running h (by rw [hs]; decide)
  | halted => exact hostRun_halted hs ▸ inv_setStatus_running h (by rw [hs]; decide)
  | running => exact (hostRun_running hs).symm ▸ h
  | faulted => exact (hostRun_faulted hs).symm ▸ h

theorem hostLoad_wf (image : List Byte) (hm : s.mem.wf = true) : (hostLoad image s).mem.wf = true := by
  rw [hostLoad]
  split_ifs
  · exact hm
  · exact hm
  · exact Memory.wf_place _ image hm

/-- Settles O53: `run` leaves no fault and writes none, reset is the reset state up to hidden state, and a load writes
memory only. -/
theorem hostEventsKeepInvariant : Obligations.HostEventsKeepInvariant := by
  intro e s h
  cases e with
  | run => exact hostRun_inv h
  | reset => exact inv_of_record_empty Memory.wf_reset flags_exclusive_reset nofun rfl
  | load image =>
    obtain ⟨hm, hx, hrecord⟩ := h
    rw [applyHostEvent, hostLoad_rest]
    exact ⟨hostLoad_wf image hm, hx, hrecord⟩

/-! ### Reachable states -/

theorem reachable_inv (h : Reachable s) : s.Inv := by
  induction h with
  | reset => exact resetMeetsInvariant
  | step _ hstep ih => exact stepKeepsInvariant _ _ ih hstep
  | host e _ ih => exact hostEventsKeepInvariant e _ ih

/-- A legal record never names the ALU's cause, so a Faulted state names one of the other two (R89). -/
theorem cause_of_inv (h : s.Inv) (hs : s.status = .faulted) :
    s.faultRecord.cause = .unsupportedInstruction ∨ s.faultRecord.cause = .outOfRange := by
  obtain ⟨-, -, hiff, -, -, halu, -⟩ := h
  cases hc : s.faultRecord.cause with
  | none => exact absurd hc (hiff.1 hs)
  | unsupportedInstruction => exact .inl rfl
  | unsupportedAluOperation => exact absurd hc halu
  | outOfRange => exact .inr rfl

/-- Settles O54: by induction on how the state is reached. -/
theorem reachableStatesMeetInvariant : Obligations.ReachableStatesMeetInvariant :=
  fun _ h => ⟨reachable_inv h, cause_of_inv (reachable_inv h)⟩

end Sys2Proof.Machine
end
